-- ==== Sys2Proof/Word.lean ====
section
/-! DEFINITION. The word types of KECCAK256-CORE (spec/00_scope.md section 5.1: bit 0 is the least significant bit
everywhere and every value is unsigned). -/

namespace Sys2Proof

/-- One byte: a message byte, an operand, a digest byte, a status register. -/
abbrev Byte := BitVec 8

/-- One 64-bit lane of the sponge state (R2: lane width 64; R10). -/
abbrev Lane := BitVec 64

/-- A command word of the host port: `op` in bits 15:8, `arg` in bits 7:0 (R50). -/
abbrev CmdWord := BitVec 16

/-- A micro-operation word of the engine's sequencer: `RND` in bits 6:2, `STP` in bits 1:0 (R56). -/
abbrev MicroWord := BitVec 7

end Sys2Proof
end

