-- ==== Sys2Proof/Config.lean ====
section
/-! DEFINITION. The parameters of the block. R2 fixes every parameter of the algorithm; the open parameters are
HAS_TAP, A_RESET, BUF_RESET and LAT (00_scope.md section 4.1). -/

namespace Sys2Proof.Config

/-! ## Fixed parameters (R2) -/

/-- Lane width in bits. -/
abbrev W : Nat := 64
/-- Number of lanes, a 5 x 5 grid. -/
abbrev NLANES : Nat := 25
/-- Width of the sponge state in bits. -/
abbrev STATE_BITS : Nat := NLANES * W
/-- Width of the sponge state in bytes: the size of the state byte space ST. -/
abbrev STATE_BYTES : Nat := STATE_BITS / 8
/-- Block size in bytes: the size of BUF. -/
abbrev RATE : Nat := 136
/-- Lanes covered by one block. -/
abbrev RATE_LANES : Nat := RATE / 8
/-- Bytes of the state that are never XORed with input and never read out. -/
abbrev CAPACITY : Nat := 64
/-- Digest length in bytes. -/
abbrev DIGEST_BYTES : Nat := 32
/-- Rounds of one permutation. -/
abbrev NROUNDS : Nat := 24
/-- First padding byte. -/
abbrev PAD_FIRST : Byte := 0x01
/-- ORed into the last byte of the last block. -/
abbrev PAD_LAST : Byte := 0x80

/-! ## Open parameters -/

/-- HAS_TAP of the copy that `State.reset` describes (R152 leaves it open; DESIGN CHOICE, notes/assumptions/2.md).
Every state carries its own value and no step changes it, so statements about `exec` and `step` hold for both. -/
def hasTapAtReset : Bool := true

/-- The value every lane of A_RESET holds (R160 leaves it open; DESIGN CHOICE, notes/assumptions/1.md, unsafe). -/
def laneAtReset : Lane := 0

/-- The value every byte of BUF_RESET holds (R160 leaves it open; DESIGN CHOICE, notes/assumptions/1.md, unsafe). -/
def bufByteAtReset : Byte := 0

end Sys2Proof.Config
end

