-- ==== Sys2Proof/Syntax.lean ====
section
/-! DEFINITION. The instructions: one constructor per row of spec/opcode_table.json, five host commands (R53) and the
four micro-operations of the Permutation Engine (R56). -/

namespace Sys2Proof

/-- An instruction. A host command keeps its whole 8-bit operand, as the opcode map's mask 0xFF00 does (R53): the
legality of the operand is checked when the command is carried out (R51, R120). A micro-operation keeps its round
index; the indices 24 to 31, which never occur (R56, U10), cannot be written. -/
inductive Instr where
  /-- INIT, format N: start a hash computation. -/
  | init (arg : Byte)
  /-- ABSORB b, format B: deliver the next input byte. -/
  | absorb (byte : Byte)
  /-- FINAL, format N: end of the byte stream. -/
  | final (arg : Byte)
  /-- RDIG i, format I: read digest byte i. -/
  | rdig (idx : Byte)
  /-- RDSR n, format I: read status register n. -/
  | rdsr (idx : Byte)
  /-- THETA, STP = 0. -/
  | theta (rnd : Fin 24)
  /-- RHOPI, STP = 1. -/
  | rhopi (rnd : Fin 24)
  /-- CHI, STP = 2. -/
  | chi (rnd : Fin 24)
  /-- IOTA, STP = 3. -/
  | iota (rnd : Fin 24)
deriving DecidableEq, Repr

/-- An instruction as bits: the host port carries 16-bit command words (R50), the sequencer 7-bit micro-operation
words (R56); the two never mix, since a micro-operation word is not an input of the block. -/
inductive Encoded where
  | command (w : CmdWord)
  | micro (u : MicroWord)
deriving DecidableEq, Repr

end Sys2Proof
end

