-- ==== Sys2Proof/Machine/State.lean ====
section
/-! DEFINITION. The state of one copy of the block, as plain data (10_state.md section 1, R24), what its port holds
(R60), and the reset state (R160). -/

namespace Sys2Proof.Machine

/-! ## The sponge state A (R10) -/

/-- One row of the grid: the five lanes with the same `y`, by `x`. -/
structure Row where
  x0 : Lane
  x1 : Lane
  x2 : Lane
  x3 : Lane
  x4 : Lane
deriving DecidableEq, Repr

/-- The 25 lanes A[0..24], "always exactly 25 lanes", as the 5 x 5 grid of R10: row `y`, column `x` holds A[x + 5y]. -/
structure Lanes where
  y0 : Row
  y1 : Row
  y2 : Row
  y3 : Row
  y4 : Row
deriving DecidableEq, Repr

/-- One rate-sized block of 136 bytes: BUF, or a padded block (R12, R103). -/
abbrev Block := Vector Byte 136

/-! ## Control state -/

/-- PHASE, the protocol state (R14). -/
inductive Phase where
  | idle | absorb | done | fault
deriving DecidableEq, Repr

/-- ECODE, the first fault cause since the last INIT or reset, or none (R15). Values 5 to 15 never occur (U9). -/
inductive ECode where
  | none | illop | rsvarg | badidx | badphase
deriving DecidableEq, Repr

/-- The four causes a command can raise (R140). -/
inductive Cause where
  | illop | rsvarg | badidx | badphase
deriving DecidableEq, Repr

/-- STP, the step within a round (R16). -/
inductive Stp where
  | theta | rhopi | chi | iota
deriving DecidableEq, Repr

/-- SEQ = (RND, STP), the sequencer that stands in for a program counter (R16). RND 24 to 31 never occur (U10). -/
structure Sequencer where
  rnd : Fin 24
  stp : Stp
deriving DecidableEq, Repr

/-- SEQ at rest and at the start of every PERMUTE (R16, R75). -/
def Sequencer.start : Sequencer := ⟨0, .theta⟩

/-- The two places a PERMUTE is invoked from (R102). -/
inductive Caller where
  | absorb | final
deriving DecidableEq, Repr

/-- Whether a command is in progress (R60, R160 "command port"). `permuting c` stands between the XOR of a block and
the end of the PERMUTE of command `c`. -/
inductive Activity where
  | rest
  | permuting (caller : Caller)
deriving DecidableEq, Repr

/-! ## What goes through the port -/

/-- What the host does at the port (R154): it presents a command word, or asserts reset. -/
inductive HostEvent where
  | command (w : CmdWord)
  | reset
deriving DecidableEq, Repr

/-- The response to a command: a fault bit and 8 data bits (R55). -/
structure Response where
  fault : Bool
  data : Byte
deriving DecidableEq, Repr

/-- The checkpoints of the trace tap (R152). Kinds 6 and 7 never occur (U10). -/
inductive TapKind where
  | postXor | postTheta | postRhopi | postChi | postIota | finalState
deriving DecidableEq, Repr

/-- One event of the trace tap: the checkpoint, the round index, and the lanes at that moment (R152). -/
structure TapEvent where
  kind : TapKind
  rnd : Fin 24
  lanes : Lanes
deriving DecidableEq, Repr

/-- The state of one copy of the block: the seven elements of 10_state.md section 1 (`lanes`, `buf`, `off`, `phase`,
`ecode`, and SEQ's RND and STP), and the port. -/
structure State where
  /-- A[0..24] (R10). -/
  lanes : Lanes
  /-- BUF[0..135] (R12). -/
  buf : Block
  /-- OFF, the number of defined bytes in BUF (R13). -/
  off : BitVec 8
  /-- PHASE (R14). -/
  phase : Phase
  /-- ECODE (R15). -/
  ecode : ECode
  /-- SEQ (R16). -/
  seq : Sequencer
  /-- The command in progress, if any; the model's own field (notes/assumptions/6.md). -/
  activity : Activity
  /-- HAS_TAP of this copy; no step changes it (notes/assumptions/2.md). -/
  hasTap : Bool
  /-- What the host presents from here on, oldest first; the model's own field (notes/assumptions/3.md). -/
  input : List HostEvent
  /-- The response given in the last step; the model's own field (notes/assumptions/4.md). -/
  rsp : Option Response
  /-- The trace events emitted in the last step, in order; the model's own field (notes/assumptions/4.md). -/
  tap : List TapEvent
deriving DecidableEq, Repr

/-- The machine stops with a fault: NEVER. A fault of the spec (R140) is a next state (R142), the engine is total
(R77), every accepted command completes (R169) and "the block never halts" (R171), so no reason exists
(notes/assumptions/12.md; safe). -/
inductive Fault : Type
deriving DecidableEq, Repr

/-- No meaning for the instruction. -/
inductive Refusal where
  /-- Raised by `exec` for an instruction that has no meaning yet; no arm of this model raises it. Safe: the machine
  stops. -/
  | notModelled (mnemonic : String)
deriving DecidableEq, Repr

/-- What a meaning answers. -/
abbrev Result := Host.Outcome State Fault Refusal

/-! ## Reset (R160) -/

/-- A_RESET (notes/assumptions/1.md). -/
def lanesAtReset : Lanes :=
  let row : Row := ⟨Config.laneAtReset, Config.laneAtReset, Config.laneAtReset, Config.laneAtReset, Config.laneAtReset⟩
  ⟨row, row, row, row, row⟩

/-- BUF_RESET (notes/assumptions/1.md). -/
def bufAtReset : Block := Vector.replicate 136 Config.bufByteAtReset

/-- The state after reset or power-on of a copy with the given HAS_TAP (R160): nothing in progress, no response and no
tap event pending, nothing presented by the host. -/
def State.resetOf (hasTap : Bool) : State where
  lanes := lanesAtReset
  buf := bufAtReset
  off := 0
  phase := .idle
  ecode := .none
  seq := .start
  activity := .rest
  hasTap := hasTap
  input := []
  rsp := none
  tap := []

/-- The state right after reset. -/
def State.reset : State := State.resetOf Config.hasTapAtReset

end Sys2Proof.Machine
end

