-- ==== Sys2Proof/Machine/Flags.lean ====
section
/-! DEFINITION. The conditions of the block. There are no arithmetic flags (R15): what takes their place are the codes
of PHASE, ECODE, STP and the tap kinds, the two status registers (R17) and the phases each command is allowed in
(R120). -/

namespace Sys2Proof.Machine

/-! ## Codes -/

/-- The 2-bit code of PHASE (R14). -/
def Phase.code : Phase → BitVec 2
  | .idle => 0
  | .absorb => 1
  | .done => 2
  | .fault => 3

/-- The 4-bit code of ECODE (R15). -/
def ECode.code : ECode → BitVec 4
  | .none => 0
  | .illop => 1
  | .rsvarg => 2
  | .badidx => 3
  | .badphase => 4

/-- What ECODE holds for a cause (R142). -/
def Cause.ecode : Cause → ECode
  | .illop => .illop
  | .rsvarg => .rsvarg
  | .badidx => .badidx
  | .badphase => .badphase

/-- The cause as response data, `zext_8(c)` (R142, R55). -/
def Cause.data (c : Cause) : Byte := c.ecode.code.setWidth 8

/-- The 2-bit code of STP (R16). -/
def Stp.code : Stp → BitVec 2
  | .theta => 0
  | .rhopi => 1
  | .chi => 2
  | .iota => 3

/-- The 3-bit code of a tap kind (R152). -/
def TapKind.code : TapKind → BitVec 3
  | .postXor => 0
  | .postTheta => 1
  | .postRhopi => 2
  | .postChi => 3
  | .postIota => 4
  | .finalState => 5

/-- The checkpoint after a step of a round: kind STP + 1 (R56, R152). -/
def Stp.tapKind : Stp → TapKind
  | .theta => .postTheta
  | .rhopi => .postRhopi
  | .chi => .postChi
  | .iota => .postIota

/-! ## Status registers (R17) -/

/-- SR0: ECODE in [7:4], zero in [3:2], PHASE in [1:0]. -/
def State.sr0 (s : State) : Byte := s.ecode.code ++ (0#2 ++ s.phase.code)

/-- SR1: OFF. -/
def State.sr1 (s : State) : Byte := s.off

/-- Status register `n`. -/
def State.statusRegister (s : State) (n : Fin 2) : Byte := if n = 0 then s.sr0 else s.sr1

/-- `cmd_ready`: the block can accept a command (R60). -/
def State.cmdReady (s : State) : Bool := s.activity == .rest

/-! ## Allowed phases (R120) -/

/-- INIT and RDSR: every phase. -/
def anyPhase (_ : Phase) : Bool := true

/-- ABSORB and FINAL: phase ABSORB only. -/
def inAbsorb (p : Phase) : Bool := p == .absorb

/-- RDIG: phase DONE only. -/
def inDone (p : Phase) : Bool := p == .done

end Sys2Proof.Machine
end

