-- ==== Sys2Proof/Machine/Operands.lean ====
section
/-! DEFINITION. Lanes and bytes: the grid (R4, R10), rotation (R3), the state byte space ST (R31 to R33), block lanes
(R101), and the operands of the commands (R51, R52). -/

namespace Sys2Proof.Machine

/-! ## The grid -/

/-- Column of lane `i`: `i mod 5` (R4). -/
def gridX (i : Fin 25) : Fin 5 := ⟨i.val % 5, Nat.mod_lt _ (by decide)⟩

/-- Row of lane `i`: `i div 5` (R4). -/
def gridY (i : Fin 25) : Fin 5 := ⟨i.val / 5, by omega⟩

/-- Lane number of position (x, y): `x + 5y` (R4). -/
def laneNumber (x y : Fin 5) : Fin 25 := ⟨x.val + 5 * y.val, by omega⟩

/-- The lane of a row at column `x`. -/
def Row.get (r : Row) : Fin 5 → Lane
  | 0 => r.x0
  | 1 => r.x1
  | 2 => r.x2
  | 3 => r.x3
  | 4 => r.x4

/-- The row `y` of the grid. -/
def Lanes.row (a : Lanes) : Fin 5 → Row
  | 0 => a.y0
  | 1 => a.y1
  | 2 => a.y2
  | 3 => a.y3
  | 4 => a.y4

/-- A[x, y] (R4). -/
def Lanes.lane (a : Lanes) (x y : Fin 5) : Lane := (a.row y).get x

/-- A[i] (R10). -/
def Lanes.get (a : Lanes) (i : Fin 25) : Lane := a.lane (gridX i) (gridY i)

/-- The row whose lane at column `x` is `f x`. -/
def Row.ofFn (f : Fin 5 → Lane) : Row := ⟨f 0, f 1, f 2, f 3, f 4⟩

/-- The grid whose lane at (x, y) is `f x y`, all 25 written together. -/
def Lanes.ofGrid (f : Fin 5 → Fin 5 → Lane) : Lanes :=
  ⟨.ofFn (f · 0), .ofFn (f · 1), .ofFn (f · 2), .ofFn (f · 3), .ofFn (f · 4)⟩

/-- The grid whose lane `i` is `f i`. -/
def Lanes.ofFn (f : Fin 25 → Lane) : Lanes := .ofGrid fun x y => f (laneNumber x y)

/-- 25 lanes of zero (R121). -/
def Lanes.zero : Lanes := .ofGrid fun _ _ => 0

/-- Circular left rotation over 64 bits (R3). -/
def rotl (v : Lane) (n : Fin 64) : Lane :=
  if n = 0 then v else (v <<< n.val) ||| (v >>> (64 - n.val))

/-! ## Bytes of lanes -/

/-- Byte `k` of a lane, counting from the least significant (R31). -/
def laneByte (v : Lane) (k : Fin 8) : Byte := v.extractLsb' (8 * k.val) 8

/-- A lane with its byte `k` replaced (R32). -/
def setLaneByte (v : Lane) (k : Fin 8) (b : Byte) : Lane :=
  (v &&& ~~~((0xFF : Lane) <<< (8 * k.val))) ||| (b.setWidth 64 <<< (8 * k.val))

/-- The lane that holds byte `a` of ST: `a div 8` (R31). -/
def stLane (a : Fin 200) : Fin 25 := ⟨a.val / 8, by omega⟩

/-- The place of byte `a` of ST within its lane: `a mod 8` (R31). -/
def stByte (a : Fin 200) : Fin 8 := ⟨a.val % 8, Nat.mod_lt _ (by decide)⟩

/-- MemRead(ST, a, 1) (R31). -/
def stRead (l : Lanes) (a : Fin 200) : Byte := laneByte (l.get (stLane a)) (stByte a)

/-- MemWrite(ST, a, 1, v) (R32). -/
def stWrite (l : Lanes) (a : Fin 200) (v : Byte) : Lanes :=
  .ofFn fun i => if i = stLane a then setLaneByte (l.get i) (stByte a) v else l.get i

/-- The 1600 bits of the lanes as one vector, bit `64 * i + b` being bit `b` of A[i] (R152). -/
def stateBits (l : Lanes) : BitVec 1600 :=
  (List.finRange 25).foldl (fun v i => v ||| ((l.get i).setWidth 1600 <<< (64 * i.val))) 0

/-- Lane `i` of a block: its bytes 8i to 8i + 7, little-endian (R101). -/
def blockLane (blk : Block) (i : Fin 17) : Lane :=
  blk[8 * i.val + 7] ++ blk[8 * i.val + 6] ++ blk[8 * i.val + 5] ++ blk[8 * i.val + 4] ++
    blk[8 * i.val + 3] ++ blk[8 * i.val + 2] ++ blk[8 * i.val + 1] ++ blk[8 * i.val]

/-! ## Operands of the commands (R51): what each format makes of `arg`, or the word-level cause it raises -/

/-- Format N: `arg` must be 0x00. -/
def noOperand (arg : Byte) : Except Cause Unit := if arg = 0 then .ok () else .error .rsvarg

/-- Format B: every byte is legal. -/
def byteOperand (arg : Byte) : Except Cause Byte := .ok arg

/-- Format I of RDIG: an index 0 to 31. -/
def digestIndex (arg : Byte) : Except Cause (Fin 32) :=
  if h : arg.toNat < 32 then .ok ⟨arg.toNat, h⟩ else .error .badidx

/-- Format I of RDSR: a status register number 0 or 1. -/
def statusNumber (arg : Byte) : Except Cause (Fin 2) :=
  if h : arg.toNat < 2 then .ok ⟨arg.toNat, h⟩ else .error .badidx

end Sys2Proof.Machine
end

