-- ==== Sys2Proof/Machine/Ops.lean ====
section
/-! DEFINITION. The operations that every meaning shares: responding, the tap, taking a fault and leaving it, the checks
of a command (R120), the sequencer (R76), the end of a command, reset. -/

namespace Sys2Proof.Machine

/-! ## Outputs -/

/-- respond(f, d): complete the command with a response (R55). -/
def respond (fault : Bool) (data : Byte) (s : State) : State := { s with rsp := some ⟨fault, data⟩ }

/-- tap(kind, r): if HAS_TAP, one event with the lanes as they are; nothing else changes (R152). -/
def emitTap (kind : TapKind) (rnd : Fin 24) (s : State) : State :=
  if s.hasTap then { s with tap := s.tap ++ [⟨kind, rnd, s.lanes⟩] } else s

/-- Nothing is on the output ports: what every step starts with (notes/assumptions/4.md). -/
def clearOutputs (s : State) : State := { s with rsp := none, tap := [] }

/-! ## Taking a fault and leaving it -/

/-- raise Fault(c) (R142): outside FAULT the cause is kept and the phase becomes FAULT; in FAULT nothing changes (R143);
the response carries this command's own cause. -/
def raiseFault (c : Cause) (s : State) : State :=
  respond true c.data (if s.phase = .fault then s else { s with ecode := c.ecode, phase := .fault })

/-- What INIT does (R121), the only way out of FAULT but reset (R144): the lanes are zeroed, the buffer is empty, the
phase is ABSORB and the cause is cleared. BUF is not written. -/
def startComputation (s : State) : State :=
  { s with lanes := .zero, off := 0, phase := .absorb, ecode := .none }

/-! ## The checks of a command -/

/-- How a decoded command is carried out (R120, R141): a word-level cause comes before the phase check, a faulting
command does nothing else, and a command that passes runs its body on its operand. -/
def carryOut {α : Type} (operand : Except Cause α) (allowed : Phase → Bool) (body : α → State → State)
    (s : State) : Result :=
  match operand with
  | .error c => .next (raiseFault c s)
  | .ok a => if allowed s.phase then .next (body a s) else .next (raiseFault .badphase s)

/-! ## The sequencer -/

/-- The micro-operation after this one (R76): the next step, else THETA of the next round, else (0, 0). -/
def Sequencer.next (q : Sequencer) : Sequencer :=
  match q.stp with
  | .theta => ⟨q.rnd, .rhopi⟩
  | .rhopi => ⟨q.rnd, .chi⟩
  | .chi => ⟨q.rnd, .iota⟩
  | .iota => if h : q.rnd.val < 23 then ⟨⟨q.rnd.val + 1, by omega⟩, .theta⟩ else .start

/-- The micro-operation at `q` writes its lanes, emits its tap event, and the sequencer moves on (R75, R76). -/
def microEffect (q : Sequencer) (lanes : Lanes) (s : State) : State :=
  { emitTap q.stp.tapKind q.rnd { s with lanes := lanes } with seq := q.next }

/-! ## The end of a command that included a PERMUTE -/

/-- What the command does after its PERMUTE: ABSORB empties the buffer (R122); FINAL emits the final-state checkpoint,
empties the buffer and makes the digest readable (R123). Both respond (0, 0x00) and are then over. -/
def finishCommand (c : Caller) (s : State) : State :=
  match c with
  | .absorb => respond false 0x00 { s with off := 0, activity := .rest }
  | .final => respond false 0x00 { emitTap .finalState 0 s with off := 0, phase := .done, activity := .rest }

/-! ## Reset -/

/-- Reset (R160, R161): whatever was in progress is abandoned without a response; what the host presents afterwards
is kept. -/
def resetBlock (rest : List HostEvent) (s : State) : State := { State.resetOf s.hasTap with input := rest }

end Sys2Proof.Machine
end

