-- ==== Sys2Proof/Machine/Tables.lean ====
section
/-! DEFINITION. The two constant tables of the engine and the rules that generate them (R18 to R22). -/

namespace Sys2Proof.Machine

/-! ## Round constants -/

/-- RC[0..23] as R18 prints them. -/
def rcTable : List Lane :=
  [0x0000000000000001, 0x0000000000008082, 0x800000000000808A, 0x8000000080008000,
   0x000000000000808B, 0x0000000080000001, 0x8000000080008081, 0x8000000000008009] ++
  [0x000000000000008A, 0x0000000000000088, 0x0000000080008009, 0x000000008000000A,
   0x000000008000808B, 0x800000000000008B, 0x8000000000008089, 0x8000000000008003] ++
  [0x8000000000008002, 0x8000000000000080, 0x000000000000800A, 0x800000008000000A,
   0x8000000080008081, 0x8000000000008080, 0x0000000080000001, 0x8000000080008008]

/-- RC[r] (R18). -/
def RC (r : Fin 24) : Lane := rcTable.getD r.val 0

/-- One step of the 8-bit LFSR of R19: shift left, and XOR 0x71 when bit 7 was shifted out. -/
def lfsrStep (l : Byte) : Byte := if l.getLsbD 7 then (l <<< 1) ^^^ 0x71 else l <<< 1

/-- The LFSR's value after `n` steps from the seed 1 (R19). -/
def lfsr : Nat → Byte
  | 0 => 0x01
  | n + 1 => lfsrStep (lfsr n)

/-- The round constant R19 generates for round `r`: seven output bits, bit `j` placed at position 2^j - 1. -/
def lfsrRoundConstant (r : Nat) : Lane :=
  (List.range 7).foldl
    (fun c j => if (lfsr (7 * r + j)).getLsbD 0 then c ||| (1 <<< (2 ^ j - 1)) else c) 0

/-! ## Rotation amounts -/

/-- The table of R20, one line per `y`, each with `x` from 0 to 4. -/
def rhoRows : List (List (Fin 64)) :=
  [[ 0,  1, 62, 28, 27],
   [36, 44,  6, 55, 20],
   [ 3, 10, 43, 25, 39],
   [41, 45, 15, 21,  8],
   [18,  2, 61, 56, 14]]

/-- RHO[x][y] (R20). -/
def RHO (x y : Fin 5) : Fin 64 := (rhoRows.getD y.val []).getD x.val 0

/-- The position the walk of R21 is at for `t`, from (1, 0) by (x, y) to (y, 2x + 3y). -/
def rhoWalk : Nat → Fin 5 × Fin 5
  | 0 => (1, 0)
  | t + 1 => ((rhoWalk t).2, 2 * (rhoWalk t).1 + 3 * (rhoWalk t).2)

/-- The amount R21 generates for a position: 0 at (0, 0), else (t + 1)(t + 2) / 2 mod 64 for the `t` of its visit. -/
def walkAmount (x y : Fin 5) : Nat :=
  match (List.range 24).find? (fun t => decide (rhoWalk t = (x, y))) with
  | some t => (t + 1) * (t + 2) / 2 % 64
  | none => 0

end Sys2Proof.Machine
end

