-- ==== Sys2Proof/Machine/Permutation.lean ====
section
/-! DEFINITION. The Permutation Engine (40_permutation.md): the four steps on the lanes, ROUND and PERMUTE, and the
meanings of the four micro-operations. -/

namespace Sys2Proof.Machine

/-! ## The steps on the lanes: every read is of the old grid, all writes happen together (R70 to R73) -/

/-- C[x], the parity of column `x` (R70). -/
def columnParity (a : Lanes) (x : Fin 5) : Lane :=
  a.lane x 0 ^^^ a.lane x 1 ^^^ a.lane x 2 ^^^ a.lane x 3 ^^^ a.lane x 4

/-- D[x] (R70). -/
def thetaD (a : Lanes) (x : Fin 5) : Lane := columnParity a (x - 1) ^^^ rotl (columnParity a (x + 1)) 1

/-- THETA on the lanes (R70). -/
def theta (a : Lanes) : Lanes := .ofGrid fun x y => a.lane x y ^^^ thetaD a x

/-- RHOPI on the lanes (R71). Destination (x, y) takes its lane from the source (x + 3y, x), the inverse of the map
(x, y) to (y, 2x + 3y). -/
def rhopi (a : Lanes) : Lanes := .ofGrid fun x y => rotl (a.lane (x + 3 * y) x) (RHO (x + 3 * y) x)

/-- CHI on the lanes (R72). -/
def chi (a : Lanes) : Lanes := .ofGrid fun x y => a.lane x y ^^^ (~~~(a.lane (x + 1) y) &&& a.lane (x + 2) y)

/-- IOTA of round `r` on the lanes (R73). -/
def iota (r : Fin 24) (a : Lanes) : Lanes :=
  { a with y0 := { a.y0 with x0 := a.y0.x0 ^^^ RC r } }

/-- ROUND(r) (R74). -/
def roundLanes (r : Fin 24) (a : Lanes) : Lanes := iota r (chi (rhopi (theta a)))

/-- Rounds in the order of the list. -/
def rounds (rs : List (Fin 24)) (a : Lanes) : Lanes := rs.foldl (fun b r => roundLanes r b) a

/-- PERMUTE as a function of the lanes: ROUND(0) to ROUND(23) (R75). -/
def permuteLanes (a : Lanes) : Lanes := rounds (List.finRange 24) a

/-! ## The trace events of a PERMUTE (R75, R152) -/

/-- The four events of one round. -/
def roundEvents (r : Fin 24) (a : Lanes) : List TapEvent :=
  [⟨.postTheta, r, theta a⟩, ⟨.postRhopi, r, rhopi (theta a)⟩, ⟨.postChi, r, chi (rhopi (theta a))⟩,
   ⟨.postIota, r, roundLanes r a⟩]

/-- The events of the rounds of a list, in order. -/
def roundsEvents : List (Fin 24) → Lanes → List TapEvent
  | [], _ => []
  | r :: rs, a => roundEvents r a ++ roundsEvents rs (roundLanes r a)

/-- The 96 events of a PERMUTE. -/
def permuteEvents (a : Lanes) : List TapEvent := roundsEvents (List.finRange 24) a

/-! ## The micro-operations on the state -/

/-- THETA with the round index `r` (R70). -/
def thetaOp (r : Fin 24) (s : State) : State := microEffect ⟨r, .theta⟩ (theta s.lanes) s

/-- RHOPI with the round index `r` (R71). -/
def rhopiOp (r : Fin 24) (s : State) : State := microEffect ⟨r, .rhopi⟩ (rhopi s.lanes) s

/-- CHI with the round index `r` (R72). -/
def chiOp (r : Fin 24) (s : State) : State := microEffect ⟨r, .chi⟩ (chi s.lanes) s

/-- IOTA with the round index `r` (R73). -/
def iotaOp (r : Fin 24) (s : State) : State := microEffect ⟨r, .iota⟩ (iota r s.lanes) s

/-- The micro-operation that the sequencer is at (R16, R56). -/
def microOp (q : Sequencer) (s : State) : State :=
  match q.stp with
  | .theta => thetaOp q.rnd s
  | .rhopi => rhopiOp q.rnd s
  | .chi => chiOp q.rnd s
  | .iota => iotaOp q.rnd s

/-- `n` micro-operations, each the one SEQ is at. -/
def microRun : Nat → State → State
  | 0, s => s
  | n + 1, s => microRun n (microOp s.seq s)

/-- PERMUTE on the state (R75): 96 micro-operations from SEQ = (0, 0). SEQ is put to (0, 0), where it always is at
rest (notes/assumptions/17.md). -/
def permute (s : State) : State := microRun 96 { s with seq := .start }

/-! ## Meanings -/

/-- THETA (R70). -/
def execTheta (rnd : Fin 24) (s : State) : Result := .next (thetaOp rnd s)

/-- RHOPI (R71). -/
def execRhopi (rnd : Fin 24) (s : State) : Result := .next (rhopiOp rnd s)

/-- CHI (R72). -/
def execChi (rnd : Fin 24) (s : State) : Result := .next (chiOp rnd s)

/-- IOTA (R73). -/
def execIota (rnd : Fin 24) (s : State) : Result := .next (iotaOp rnd s)

end Sys2Proof.Machine
end

