-- ==== Sys2Proof/Machine/Sponge.lean ====
section
/-! DEFINITION. The Sponge Controller's operations (41_sponge.md): BUFPUT, XORBLK, ABSORBBLK, PADBLK, SQUEEZE. -/

namespace Sys2Proof.Machine

/-- BUFPUT(b) (R100): BUF[OFF] <- b; OFF <- OFF + 1. There is no byte BUF[k] for k above 135, so with such an OFF, which
never occurs (R13), nothing is stored (notes/assumptions/7.md). -/
def bufPut (b : Byte) (s : State) : State :=
  { s with buf := s.buf.setIfInBounds s.off.toNat b, off := s.off + 1 }

/-- XORBLK(blk) on the lanes (R101): lanes 0 to 16 take the block, lanes 17 to 24 are not touched. -/
def xorBlk (blk : Block) (l : Lanes) : Lanes :=
  .ofFn fun i => if h : i.val < 17 then l.get i ^^^ blockLane blk ⟨i.val, h⟩ else l.get i

/-- XORBLK(blk) in the byte form of R101: one MemWrite of R32 for each byte of the rate region, in order. -/
def xorBlkBytes (blk : Block) (l : Lanes) : Lanes :=
  (List.finRange 136).foldl
    (fun m k => stWrite m (k.castLE (by decide)) (stRead m (k.castLE (by decide)) ^^^ blk[k.val])) l

/-- The first part of ABSORBBLK (R102): XORBLK and the post-XOR checkpoint. The command is now in progress and the
PERMUTE is about to start. -/
def beginBlock (c : Caller) (blk : Block) (s : State) : State :=
  emitTap .postXor 0 { s with lanes := xorBlk blk s.lanes, seq := .start, activity := .permuting c }

/-- ABSORBBLK(blk) (R102): XORBLK, tap(0,0), PERMUTE. -/
def absorbBlk (c : Caller) (blk : Block) (s : State) : State := permute (beginBlock c blk s)

/-- The 97 trace events of an ABSORBBLK: the post-XOR checkpoint and those of the PERMUTE (R102, R152). -/
def blockEvents (blk : Block) (l : Lanes) : List TapEvent :=
  ⟨.postXor, 0, xorBlk blk l⟩ :: permuteEvents (xorBlk blk l)

/-- Byte `k` of the padded block before the last byte is marked (R103). -/
def padByte (buf : Block) (off : BitVec 8) (k : Fin 136) : Byte :=
  if k.val < off.toNat then buf[k.val] else if k.val = off.toNat then 0x01 else 0x00

/-- PADBLK (R103): the buffered bytes, 0x01, zeros, and 0x80 ORed into byte 135. -/
def padBlk (buf : Block) (off : BitVec 8) : Block :=
  Vector.ofFn fun k => if k.val = 135 then padByte buf off k ||| 0x80 else padByte buf off k

/-- SQUEEZE(i) (R104): byte `i` of ST. -/
def squeeze (i : Fin 32) (l : Lanes) : Byte := stRead l (i.castLE (by decide))

end Sys2Proof.Machine
end

