-- ==== Sys2Proof/Machine/Commands.lean ====
section
/-! DEFINITION. The meanings of the five host commands (42_commands.md). -/

namespace Sys2Proof.Machine

/-! ## Their own pseudocode, run when every check has passed -/

/-- INIT (R121). -/
def initBody (_ : Unit) (s : State) : State := respond false 0x00 (startComputation s)

/-- ABSORB b (R122): the command that delivers the 136th byte absorbs the block itself. -/
def absorbBody (b : Byte) (s : State) : State :=
  if (bufPut b s).off = 136 then
    finishCommand .absorb (absorbBlk .absorb (bufPut b s).buf (bufPut b s))
  else
    respond false 0x00 (bufPut b s)

/-- FINAL (R123). -/
def finalBody (_ : Unit) (s : State) : State :=
  finishCommand .final (absorbBlk .final (padBlk s.buf s.off) s)

/-- RDIG i (R124). -/
def rdigBody (i : Fin 32) (s : State) : State := respond false (squeeze i s.lanes) s

/-- RDSR n (R125). -/
def rdsrBody (n : Fin 2) (s : State) : State := respond false (s.statusRegister n) s

/-! ## Meanings -/

/-- INIT: format N, every phase (R121). -/
def execInit (arg : Byte) (s : State) : Result := carryOut (noOperand arg) anyPhase initBody s

/-- ABSORB: format B, phase ABSORB (R122). -/
def execAbsorb (byte : Byte) (s : State) : Result := carryOut (byteOperand byte) inAbsorb absorbBody s

/-- FINAL: format N, phase ABSORB (R123). -/
def execFinal (arg : Byte) (s : State) : Result := carryOut (noOperand arg) inAbsorb finalBody s

/-- RDIG: format I, phase DONE (R124). -/
def execRdig (idx : Byte) (s : State) : Result := carryOut (digestIndex idx) inDone rdigBody s

/-- RDSR: format I, every phase (R125). -/
def execRdsr (idx : Byte) (s : State) : Result := carryOut (statusNumber idx) anyPhase rdsrBody s

end Sys2Proof.Machine
end

