-- ==== Sys2Proof/Machine/Dispatch.lean ====
section
/-! DEFINITION. One arm per instruction. -/

namespace Sys2Proof.Machine

def exec (i : Instr) (s : State) : Host.Outcome State Fault Refusal :=
  match i with
  | .init arg => Sys2Proof.Machine.execInit arg s
  | .absorb byte => Sys2Proof.Machine.execAbsorb byte s
  | .final arg => Sys2Proof.Machine.execFinal arg s
  | .rdig idx => Sys2Proof.Machine.execRdig idx s
  | .rdsr idx => Sys2Proof.Machine.execRdsr idx s
  | .theta rnd => Sys2Proof.Machine.execTheta rnd s
  | .rhopi rnd => Sys2Proof.Machine.execRhopi rnd s
  | .chi rnd => Sys2Proof.Machine.execChi rnd s
  | .iota rnd => Sys2Proof.Machine.execIota rnd s

end Sys2Proof.Machine
end

