-- ==== Sys2Proof/Decode.lean ====
section
/-! DEFINITION. From words to instructions and back (R50 to R57). Both directions are total. -/

namespace Sys2Proof

/-- Why a word is no instruction. -/
inductive DecodeError where
  /-- A command word whose `op` is 0x00 or 0x06 to 0xFF (R54); the block takes the fault ILLOP for it. -/
  | illegalOpcode (op : Byte)
  /-- A micro-operation word with RND 24 to 31 (R56): it never occurs and no behaviour is defined for it. -/
  | reservedMicroOp (u : MicroWord)
deriving DecidableEq, Repr

/-! ## Fields -/

/-- `op`, bits 15:8 of a command word (R50). -/
def cmdOp (w : CmdWord) : Byte := w.extractLsb' 8 8

/-- `arg`, bits 7:0 of a command word, taken as it stands (R52). -/
def cmdArg (w : CmdWord) : Byte := w.extractLsb' 0 8

/-- `RND`, bits 6:2 of a micro-operation word (R56). -/
def microRnd (u : MicroWord) : BitVec 5 := u.extractLsb' 2 5

/-- `STP`, bits 1:0 of a micro-operation word (R56). -/
def microStp (u : MicroWord) : BitVec 2 := u.extractLsb' 0 2

/-! ## Decoding -/

/-- Decoding a command word (R53): the opcode alone selects the row (mask 0xFF00). -/
def decodeCommand (w : CmdWord) : Except DecodeError Instr :=
  if cmdOp w = 0x01 then .ok (.init (cmdArg w))
  else if cmdOp w = 0x02 then .ok (.absorb (cmdArg w))
  else if cmdOp w = 0x03 then .ok (.final (cmdArg w))
  else if cmdOp w = 0x04 then .ok (.rdig (cmdArg w))
  else if cmdOp w = 0x05 then .ok (.rdsr (cmdArg w))
  else .error (.illegalOpcode (cmdOp w))

/-- Decoding a micro-operation word (R56): STP selects the row (mask 0x03). -/
def decodeMicro (u : MicroWord) : Except DecodeError Instr :=
  if h : (microRnd u).toNat < 24 then
    if microStp u = 0 then .ok (.theta ⟨(microRnd u).toNat, h⟩)
    else if microStp u = 1 then .ok (.rhopi ⟨(microRnd u).toNat, h⟩)
    else if microStp u = 2 then .ok (.chi ⟨(microRnd u).toNat, h⟩)
    else .ok (.iota ⟨(microRnd u).toNat, h⟩)
  else .error (.reservedMicroOp u)

/-- Decoding a word of either kind. -/
def decode : Encoded → Except DecodeError Instr
  | .command w => decodeCommand w
  | .micro u => decodeMicro u

/-! ## Encoding -/

/-- A command word from its two bytes (R50). -/
def cmdWord (op arg : Byte) : CmdWord := op ++ arg

/-- A micro-operation word from its two fields, `u = RND ‖ STP` (R56). -/
def microWord (rnd : Fin 24) (stp : BitVec 2) : MicroWord := BitVec.ofNat 5 rnd.val ++ stp

/-- The word of an instruction (R53, R56). -/
def encode : Instr → Encoded
  | .init arg => .command (cmdWord 0x01 arg)
  | .absorb b => .command (cmdWord 0x02 b)
  | .final arg => .command (cmdWord 0x03 arg)
  | .rdig idx => .command (cmdWord 0x04 idx)
  | .rdsr idx => .command (cmdWord 0x05 idx)
  | .theta r => .micro (microWord r 0)
  | .rhopi r => .micro (microWord r 1)
  | .chi r => .micro (microWord r 2)
  | .iota r => .micro (microWord r 3)

/-! ## The opcode table -/

/-- The `match` and `mask` of a row of spec/opcode_table.json, over the row's own word. -/
structure OpcodeRow where
  matchBits : Nat
  maskBits : Nat
deriving DecidableEq, Repr

/-- The row of an instruction (R53, R56). -/
def opcodeRow : Instr → OpcodeRow
  | .init _ => ⟨0x0100, 0xFF00⟩
  | .absorb _ => ⟨0x0200, 0xFF00⟩
  | .final _ => ⟨0x0300, 0xFF00⟩
  | .rdig _ => ⟨0x0400, 0xFF00⟩
  | .rdsr _ => ⟨0x0500, 0xFF00⟩
  | .theta _ => ⟨0x00, 0x03⟩
  | .rhopi _ => ⟨0x01, 0x03⟩
  | .chi _ => ⟨0x02, 0x03⟩
  | .iota _ => ⟨0x03, 0x03⟩

/-- An encoded instruction as a number. -/
def Encoded.toNat : Encoded → Nat
  | .command w => w.toNat
  | .micro u => u.toNat

/-- The word that a number of `nbits` bits (in whole bytes) stands for, numbered as spec/opcode_table.json numbers it:
the 7-bit rows are micro-operation words and come as one byte, whose bit 7 must be 0; every other word is a command
word, one parallel 16-bit word with no byte order (R57; notes/assumptions/15.md). -/
def tableWord (nbits w : Nat) : Option Encoded :=
  if nbits ≤ 8 then
    if w < 128 then some (.micro (BitVec.ofNat 7 w)) else none
  else if w < 65536 then some (.command (BitVec.ofNat 16 w)) else none

/-- The instruction the decoder reads from a word of the opcode table; none where it refuses. -/
def decodeTableWord (nbits w : Nat) : Option Instr :=
  match tableWord nbits w with
  | none => none
  | some e =>
    match decode e with
    | .ok i => some i
    | .error _ => none

end Sys2Proof
end

