-- ==== Sys2Proof/Machine/Fetch.lean ====
section
/-! DEFINITION. What a step does before it runs an instruction: the block fetches nothing from a memory (R16); between
commands it takes what the host presents (R60, R154), inside a PERMUTE the sequencer names the micro-operation (R56). -/

namespace Sys2Proof.Machine

/-- The instruction that the sequencer is at (R16, R56). -/
def Sequencer.instr (q : Sequencer) : Instr :=
  match q.stp with
  | .theta => .theta q.rnd
  | .rhopi => .rhopi q.rnd
  | .chi => .chi q.rnd
  | .iota => .iota q.rnd

/-- What the next step is. -/
inductive Fetched where
  /-- Reset is asserted (R160, R161). -/
  | reset (rest : List HostEvent)
  /-- A PERMUTE of command `caller` is in progress: its next micro-operation, in the given state. -/
  | micro (caller : Caller) (i : Instr) (s : State)
  /-- A command word is accepted and decodes, in the given state. -/
  | command (i : Instr) (s : State)
  /-- A command word is accepted and its opcode is illegal (R54), in the given state. -/
  | illegal (s : State)
  /-- The host presents nothing: the block holds its state (R151). -/
  | idle
deriving DecidableEq, Repr

/-- Accepting a command word: it leaves the host's list, the outputs are clear, and the word is decoded (R120 step 1). -/
def accept (w : CmdWord) (rest : List HostEvent) (s : State) : Fetched :=
  match decodeCommand w with
  | .ok i => .command i (clearOutputs { s with input := rest })
  | .error _ => .illegal (clearOutputs { s with input := rest })

/-- What the next step is: reset comes first; no command is accepted while one is in progress (R60, R120). -/
def fetch (s : State) : Fetched :=
  match s.input, s.activity with
  | .reset :: rest, _ => .reset rest
  | _, .permuting c => .micro c s.seq.instr (clearOutputs s)
  | .command w :: rest, .rest => accept w rest s
  | [], .rest => .idle

/-- After a micro-operation: if it was the last of the PERMUTE, the sequencer is back at (0, 0) and the command ends
(R76). -/
def settle (c : Caller) (s : State) : State := if s.seq = .start then finishCommand c s else s

/-- The state in which the word is what the next step takes: a command word is presented first by the host, with no
command in progress; a micro-operation word is put into SEQ, with the PERMUTE of an ABSORB in progress unless one is
already, and with no reset waiting before it (notes/assumptions/3.md, 6.md). A micro-operation word with RND 24 to 31
cannot stand in SEQ; the state is then left as it is. -/
def presentWord (e : Encoded) (s : State) : State :=
  match e with
  | .command w => { s with input := .command w :: s.input, activity := .rest }
  | .micro u =>
    if h : (microRnd u).toNat < 24 then
      { s with
        seq := ⟨⟨(microRnd u).toNat, h⟩,
          if microStp u = 0 then .theta else if microStp u = 1 then .rhopi else if microStp u = 2 then .chi else .iota⟩
        activity := if s.activity = .rest then .permuting .absorb else s.activity
        input := s.input.dropWhile (· == .reset) }
    else s

end Sys2Proof.Machine
end

