-- ==== Sys2Proof/Machine/Step.lean ====
section
/-! DEFINITION. One step of the machine: one accepted command, carried out completely (R120, R154); or, when a PERMUTE
is in progress, one micro-operation (R75, R76); or a reset (R160); or nothing. -/

namespace Sys2Proof.Machine

/-- Applies a function to the next state of an answer. -/
def mapNext (f : State → State) : Result → Result
  | .next s => .next (f s)
  | .fault r => .fault r
  | .refused r => .refused r

/-- One step. -/
def step (s : State) : Host.Outcome State Fault Refusal :=
  match fetch s with
  | .reset rest => .next (resetBlock rest s)
  | .micro c i s0 => mapNext (settle c) (exec i s0)
  | .command i s0 => exec i s0
  | .illegal s0 => .next (raiseFault .illop s0)
  | .idle => .next (clearOutputs s)

/-- The state whose next step runs the word `w` of the opcode table. -/
def State.withFetchWord (s : State) (nbits w : Nat) : State :=
  match tableWord nbits w with
  | none => s
  | some e => presentWord e s

end Sys2Proof.Machine
end

