-- ==== Sys2Proof/Machine/Assembler.lean ====
section
/-! DEFINITION. The assembler of R58 and R59: host software that turns text into command words. The block never sees
it; a program has no meaning beyond its words (R58, R61). Text is a list of characters, one line at a time. -/

namespace Sys2Proof.Machine

/-- A line of a program: a command or `.word` (R58), or a pseudo-instruction (R59). Operands are the numbers as
written. -/
inductive AsmLine where
  | init
  | absorb (b : Nat)
  | final
  | rdig (i : Nat)
  | rdsr (n : Nat)
  | word (w : Nat)
  | update (bytes : List Nat)
  | updates (text : List Char)
  | digest
  | hash (bytes : List Nat)
deriving DecidableEq, Repr

/-! ## From lines to words -/

/-- A word from an opcode and an operand below a bound; an operand outside the range is refused, not truncated (R58). -/
def asmWord (op bound n : Nat) : Option CmdWord :=
  if n < bound then some (BitVec.ofNat 16 (256 * op + n)) else none

/-- One ABSORB for each byte, in order; nothing when there is none (R59). -/
def asmUpdate : List Nat → Option (List CmdWord)
  | [] => some []
  | b :: bs =>
    match asmWord 0x02 256 b, asmUpdate bs with
    | some w, some ws => some (w :: ws)
    | _, _ => none

/-- RDIG 0 to RDIG 31 (R59). -/
def asmDigest : List CmdWord := (List.range 32).map fun i => BitVec.ofNat 16 (0x0400 + i)

/-- The ASCII codes of a text (R59); a character that has none is refused. -/
def asciiCodes : List Char → Option (List Nat)
  | [] => some []
  | c :: cs =>
    if c.toNat < 128 then
      match asciiCodes cs with
      | some ns => some (c.toNat :: ns)
      | none => none
    else none

/-- The words a line stands for (R58, R59); none where the assembler refuses. -/
def assembleLine : AsmLine → Option (List CmdWord)
  | .init => some [0x0100]
  | .absorb b => (asmWord 0x02 256 b).map ([·])
  | .final => some [0x0300]
  | .rdig i => (asmWord 0x04 32 i).map ([·])
  | .rdsr n => (asmWord 0x05 2 n).map ([·])
  | .word w => (asmWord 0x00 65536 w).map ([·])
  | .update bs => asmUpdate bs
  | .updates text => (asciiCodes text).bind asmUpdate
  | .digest => some asmDigest
  | .hash bs => (asmUpdate bs).map fun ws => 0x0100 :: (ws ++ (0x0300 :: asmDigest))

/-- The words of a program: those of its lines, in order. -/
def assemble : List AsmLine → Option (List CmdWord)
  | [] => some []
  | l :: ls =>
    match assembleLine l, assemble ls with
    | some ws, some rest => some (ws ++ rest)
    | _, _ => none

/-! ## From text to lines (notes/assumptions/16.md) -/

/-- A space or a tab. -/
def isBlank (c : Char) : Bool := c == ' ' || c == '\t'

/-- A line without its comment: `;` outside a quoted text runs to the end of the line. -/
def stripComment (quoted : Bool) : List Char → List Char
  | [] => []
  | c :: cs =>
    if c == ';' && !quoted then []
    else c :: stripComment (if c == '"' then !quoted else quoted) cs

/-- The text without blanks at either end. -/
def trim (cs : List Char) : List Char := ((cs.dropWhile isBlank).reverse.dropWhile isBlank).reverse

/-- The value of a digit in the given base. -/
def digit (base : Nat) (c : Char) : Option Nat :=
  if '0' ≤ c ∧ c ≤ '9' then some (c.toNat - '0'.toNat)
  else if base = 16 ∧ 'a' ≤ c ∧ c ≤ 'f' then some (c.toNat - 'a'.toNat + 10)
  else if base = 16 ∧ 'A' ≤ c ∧ c ≤ 'F' then some (c.toNat - 'A'.toNat + 10)
  else none

/-- Digits after a value already read. -/
def digits (base : Nat) : Nat → List Char → Option Nat
  | acc, [] => some acc
  | acc, c :: cs =>
    match digit base c with
    | some d => digits base (base * acc + d) cs
    | none => none

/-- A number: decimal, or hexadecimal with `0x` before it (R58). -/
def parseNumber : List Char → Option Nat
  | [] => none
  | ['0', 'x'] => none
  | '0' :: 'x' :: ds => digits 16 0 ds
  | ds => digits 10 0 ds

/-- The pieces of a text between commas. -/
def splitCommas : List Char → List (List Char)
  | [] => [[]]
  | c :: cs =>
    if c == ',' then [] :: splitCommas cs
    else
      match splitCommas cs with
      | [] => [[c]]
      | p :: ps => (c :: p) :: ps

/-- All the numbers of a list of pieces. -/
def parseAll : List (List Char) → Option (List Nat)
  | [] => some []
  | p :: ps =>
    match parseNumber (trim p), parseAll ps with
    | some n, some ns => some (n :: ns)
    | _, _ => none

/-- Numbers separated by commas; none at all is allowed (R59: n ≥ 0). -/
def parseNumbers (cs : List Char) : Option (List Nat) :=
  if cs.isEmpty then some [] else parseAll (splitCommas cs)

/-- A text between double quotes. -/
def parseText (cs : List Char) : Option (List Char) :=
  match cs with
  | '"' :: rest =>
    match rest.reverse with
    | '"' :: body => if body.contains '"' then none else some body.reverse
    | _ => none
  | _ => none

/-- The bytes of a HASH: numbers, or a quoted text. -/
def parseBytes (cs : List Char) : Option (List Nat) :=
  match parseText cs with
  | some t => asciiCodes t
  | none => parseNumbers cs

/-- A line from its mnemonic and what follows it. -/
def parseStatement (mnemonic operand : List Char) : Option AsmLine :=
  if mnemonic = ['I', 'N', 'I', 'T'] then (if operand.isEmpty then some .init else none)
  else if mnemonic = ['A', 'B', 'S', 'O', 'R', 'B'] then (parseNumber operand).map .absorb
  else if mnemonic = ['F', 'I', 'N', 'A', 'L'] then (if operand.isEmpty then some .final else none)
  else if mnemonic = ['R', 'D', 'I', 'G'] then (parseNumber operand).map .rdig
  else if mnemonic = ['R', 'D', 'S', 'R'] then (parseNumber operand).map .rdsr
  else if mnemonic = ['.', 'w', 'o', 'r', 'd'] then (parseNumber operand).map .word
  else if mnemonic = ['U', 'P', 'D', 'A', 'T', 'E'] then (parseNumbers operand).map .update
  else if mnemonic = ['U', 'P', 'D', 'A', 'T', 'E', 'S'] then (parseText operand).map .updates
  else if mnemonic = ['D', 'I', 'G', 'E', 'S', 'T'] then (if operand.isEmpty then some .digest else none)
  else if mnemonic = ['H', 'A', 'S', 'H'] then (parseBytes operand).map .hash
  else none

/-- One line of text (R58): no line at all where it is blank or a comment, none where the assembler refuses it. -/
def parseLine (text : List Char) : Option (List AsmLine) :=
  let line := trim (stripComment false text)
  if line.isEmpty then some []
  else (parseStatement (line.takeWhile (!isBlank ·)) (trim (line.dropWhile (!isBlank ·)))).map ([·])

/-- The lines of a program text. -/
def parseLines : List (List Char) → Option (List AsmLine)
  | [] => some []
  | t :: ts =>
    match parseLine t, parseLines ts with
    | some ls, some rest => some (ls ++ rest)
    | _, _ => none

/-- The words of a program text, one command per line. -/
def assembleText (text : List (List Char)) : Option (List CmdWord) := (parseLines text).bind assemble

end Sys2Proof.Machine
end

