-- ==== Sys2Proof/Machine/Hash.lean ====
section
/-! DEFINITION. The function the block computes, KECCAK256 (R105 to R107), as mathematics: no command, no buffer, no
phase. -/

namespace Sys2Proof.Machine

/-- pad(t) (R106): what is appended to a message whose length is `t` modulo 136. -/
def pad (t : Nat) : List Byte :=
  if t = 135 then [0x81] else [0x01] ++ List.replicate (134 - t) 0x00 ++ [0x80]

/-- The padded message P (R105). -/
def padded (m : List Byte) : List Byte := m ++ pad (m.length % 136)

/-- Block `b` of a byte sequence: its bytes 136b to 136b + 135 (R105). -/
def blockOf (p : List Byte) (b : Nat) : Block := Vector.ofFn fun k => p.getD (136 * b + k.val) 0

/-- The blocks of the padded message, `n div 136 + 1` of them (R105, R107). -/
def blocks (m : List Byte) : List Block := (List.range (m.length / 136 + 1)).map (blockOf (padded m))

/-- Absorbing one block (R102, R105). -/
def absorbLanes (l : Lanes) (blk : Block) : Lanes := permuteLanes (xorBlk blk l)

/-- The final state S of R105. -/
def spongeState (m : List Byte) : Lanes := (blocks m).foldl absorbLanes .zero

/-- KECCAK256(m): bytes 0 to 31 of the final state (R105, R104). -/
def keccak256 (m : List Byte) : Vector Byte 32 := Vector.ofFn fun i => squeeze i (spongeState m)

end Sys2Proof.Machine
end

