-- ==== Sys2Proof/Safety.lean ====
section
/-! DEFINITION. What claims are stated in terms of: the invariant of the block's registers, which is what makes a
state one the block can be in; a word being offered and taken; runs over the host's events; what the host is shown. -/

namespace Sys2Proof.Machine

/-! ## The invariant -/

/-- ECODE is non-zero exactly in phase FAULT (R15). -/
abbrev State.ecodeMatchesPhase (s : State) : Prop := s.ecode ≠ .none ↔ s.phase = .fault

/-- Outside ABSORB and FAULT the buffer is empty (R13: 0 after reset, INIT and FINAL). -/
abbrev State.offMatchesPhase (s : State) : Prop := s.phase = .idle ∨ s.phase = .done → s.off = 0

/-- OFF, SEQ and PHASE against the command in progress: at rest OFF is at most 135 (R13) and SEQ is (0, 0) (R16); inside
a block-completing ABSORB, OFF is 136; inside a FINAL it is at most 135; both run in phase ABSORB (R122, R123). -/
abbrev State.activityMatches (s : State) : Prop :=
  (s.activity = .rest → s.seq = .start ∧ s.off.toNat ≤ 135) ∧
  (s.activity = .permuting .absorb → s.phase = .absorb ∧ s.off = 136) ∧
  (s.activity = .permuting .final → s.phase = .absorb ∧ s.off.toNat ≤ 135)

/-- The invariant of the block: it holds after reset, and every step keeps it. -/
abbrev State.Inv (s : State) : Prop := s.ecodeMatchesPhase ∧ s.offMatchesPhase ∧ s.activityMatches

/-! ## What the lanes and BUF hold of a message -/

/-- The block has been given the bytes `m` since INIT: the lanes are the fold of R105 over the full blocks of `m`, and BUF
below OFF holds the rest of `m` (R109's proof sketch, R110). -/
abbrev State.absorbing (m : List Byte) (s : State) : Prop :=
  s.activity = .rest ∧ s.phase = .absorb ∧ s.off.toNat = m.length % 136 ∧
  s.lanes = ((List.range (m.length / 136)).map (blockOf m)).foldl absorbLanes .zero ∧
  ∀ k : Fin 136, k.val < s.off.toNat → some s.buf[k.val] = m[136 * (m.length / 136) + k.val]?

/-- The block holds the digest of `m`: the lanes are the final state of R105, ready to be read. -/
abbrev State.hashed (m : List Byte) (s : State) : Prop :=
  s.activity = .rest ∧ s.phase = .done ∧ s.off = 0 ∧ s.lanes = spongeState m

/-- At rest, in phase ABSORB the block holds some message so far, and in phase DONE the digest of some message: a digest
is "either fully and correctly computed from a complete, well-formed byte stream, or not produced at all" (R39). -/
abbrev State.MessageInv (s : State) : Prop :=
  s.activity = .rest ∧ (s.phase = .absorb → ∃ m, s.absorbing m) ∧ (s.phase = .done → ∃ m, s.hashed m)

/-- Two states at rest that differ only where no rule reads: in the lanes in phases IDLE and FAULT, and in BUF at or above
OFF (R12, R160). -/
abbrev State.alikeToHost (s t : State) : Prop :=
  s.activity = .rest ∧ s.off.toNat ≤ 135 ∧ t = { s with lanes := t.lanes, buf := t.buf } ∧
  (s.phase = .absorb ∨ s.phase = .done → t.lanes = s.lanes) ∧
  ∀ k : Fin 136, k.val < s.off.toNat → t.buf[k.val] = s.buf[k.val]

/-! ## Runs and what the host sees of them -/

/-- The state in which the host presents the given events and the rest of the state is that of `s`. -/
def State.present (s : State) (events : List HostEvent) : State := { s with input := events }

/-- The block is ready and the host presents the word `w`, and after it `rest` (R60). -/
abbrev State.offered (s : State) (w : CmdWord) (rest : List HostEvent) : Prop :=
  s.activity = .rest ∧ s.input = .command w :: rest

/-- The state in which an accepted command runs: its word is taken, the output ports are clear. -/
def State.taken (s : State) (rest : List HostEvent) : State := { s with input := rest, rsp := none, tap := [] }

/-- No reset is the next thing the host does. -/
abbrev State.noReset (s : State) : Prop := s.input.head? ≠ some .reset

/-- `n` steps, stopping at the first fault or refusal. -/
def run : Nat → State → Result
  | 0, s => .next s
  | n + 1, s =>
    match step s with
    | .next t => run n t
    | .fault r => .fault r
    | .refused r => .refused r

/-- What a step shows the host: its response and its trace events (R55, R152). -/
structure Shown where
  rsp : Option Response
  tap : List TapEvent
deriving DecidableEq, Repr

/-- What the last step showed. -/
def State.shown (s : State) : Shown := ⟨s.rsp, s.tap⟩

/-- What the host is shown by `n` steps, in order; nothing more after a stop. -/
def shownBy : Nat → State → List Shown
  | 0, _ => []
  | n + 1, s =>
    match step s with
    | .next t => t.shown :: shownBy n t
    | .fault _ => []
    | .refused _ => []

/-- The events of a computation: INIT, one ABSORB per message byte, FINAL (R109). -/
def hashEvents (m : List Byte) : List HostEvent :=
  .command (cmdWord 0x01 0) :: (m.map fun b => .command (cmdWord 0x02 b)) ++ [.command (cmdWord 0x03 0)]

end Sys2Proof.Machine
end

