-- ==== Sys2Proof/WellFormed.lean ====
section
/-! DEFINITION. Which instructions are legal as words (R51, R54). An ill-formed one is still carried out by the block:
it takes the fault R140 names for it. -/

namespace Sys2Proof

/-- The operand of the instruction is legal (R51): format N takes 0x00 only, format B every byte, format I an index in
range. A micro-operation has no illegal form (R56). -/
def Instr.wellFormed : Instr → Bool
  | .init arg => arg == 0
  | .absorb _ => true
  | .final arg => arg == 0
  | .rdig idx => idx.toNat < 32
  | .rdsr idx => idx.toNat < 2
  | .theta _ => true
  | .rhopi _ => true
  | .chi _ => true
  | .iota _ => true

end Sys2Proof
end

