-- ==== Sys2Proof/Certificates/Slice0/Obligations.lean ====
section
/-! DEFINITION. The statements for the provers, from the numbered rules of spec/. -/

open Sys2Proof Sys2Proof.Machine

/-! ## Encoding (30_encoding.md) -/

/-- Decode and encode agree on every instruction, with every operand at every value its field admits (R50 to R53, R56),
also through the numbering of spec/opcode_table.json. -/
def Obligations.DecodeEncodeRoundTrip : Prop :=
  ∀ i : Instr, decode (encode i) = .ok i ∧
    decodeTableWord (match encode i with | .command _ => 16 | .micro _ => 8) (encode i).toNat = some i

/-- Each word has one meaning: a word that decodes is the encoding of what it decodes to. -/
def Obligations.DecodedWordReencodes : Prop :=
  ∀ (e : Encoded) (i : Instr), decode e = .ok i → encode i = e

/-- Which words decode (R53, R54, R56): a command word exactly when its opcode is 0x01 to 0x05, and any other is
rejected with its opcode; a micro-operation word exactly when it is one of 0 to 95. -/
def Obligations.WordsThatDecode : Prop :=
  (∀ w : CmdWord, if 1 ≤ w.toNat / 256 ∧ w.toNat / 256 ≤ 5 then ∃ i, decodeCommand w = .ok i
    else decodeCommand w = .error (.illegalOpcode (BitVec.ofNat 8 (w.toNat / 256)))) ∧
  (∀ u : MicroWord, if u.toNat < 96 then ∃ i, decodeMicro u = .ok i
    else decodeMicro u = .error (.reservedMicroOp u))

/-- The legal command words are exactly those of R54 and R58: 0x0100, 0x0200 to 0x02FF, 0x0300, 0x0400 to 0x041F,
0x0500 and 0x0501. -/
def Obligations.LegalCommandWords : Prop :=
  ∀ w : CmdWord, (∃ i, decodeCommand w = .ok i ∧ i.wellFormed = true) ↔
    (w.toNat = 0x0100 ∨ (0x0200 ≤ w.toNat ∧ w.toNat ≤ 0x02FF) ∨ w.toNat = 0x0300 ∨
      (0x0400 ≤ w.toNat ∧ w.toNat ≤ 0x041F) ∨ w.toNat = 0x0500 ∨ w.toNat = 0x0501)

/-- Words written out from R53, R56 and R58 decode to the instructions they stand for (a sanity statement). -/
def Obligations.SampleWordsDecode : Prop :=
  decodeCommand 0b0000000100000000 = .ok (.init 0) ∧ decodeCommand 0b0000001001100001 = .ok (.absorb 0x61) ∧
  decodeCommand 0b0000001100000000 = .ok (.final 0) ∧ decodeCommand 0b0000010000011111 = .ok (.rdig 31) ∧
  decodeCommand 0b0000010100000001 = .ok (.rdsr 1) ∧
  decodeMicro 0b0000000 = .ok (.theta 0) ∧ decodeMicro 0b0000101 = .ok (.rhopi 1) ∧
  decodeMicro 0b0101010 = .ok (.chi 10) ∧ decodeMicro 0b1011111 = .ok (.iota 23)

/-! ## Steps -/

/-- A step at rest takes the word the host presents and runs the instruction it decodes to, with the word taken and the
output ports clear; a word with an illegal opcode takes the fault ILLOP (R120, R54). The clearing of the ports is the
model's (notes/assumptions/4.md). -/
def Obligations.StepRunsPresentedCommand : Prop :=
  ∀ (s : State) (w : CmdWord) (rest : List HostEvent), s.offered w rest →
    (∀ i, decodeCommand w = .ok i → step s = exec i (s.taken rest)) ∧
    (∀ e, decodeCommand w = .error e → step s = .next (raiseFault .illop (s.taken rest)))

/-- Inside a PERMUTE a step runs the micro-operation whose word is `RND ‖ STP` of SEQ, whatever word the host presents
(R56, R120); after the last one, (23, IOTA), the sequencer is back at (0, 0) and the command ends, and after no other
(R76). That a step can stand inside a PERMUTE is the model's convention (notes/assumptions/6.md). -/
def Obligations.StepRunsSequencerMicroOp : Prop :=
  ∀ (s : State) (c : Caller) (i : Instr), s.activity = .permuting c → s.noReset →
    decodeMicro (BitVec.ofNat 5 s.seq.rnd.val ++ s.seq.stp.code) = .ok i →
    ∃ t u, exec i (s.taken s.input) = .next t ∧ step s = .next u ∧
      u = (if t.seq = ⟨0, .theta⟩ then finishCommand c t else t) ∧ (u.cmdReady = true ↔ s.seq = ⟨23, .iota⟩)

/-- `withFetchWord` makes the very next step run the word's instruction: a command word with the ports clear and nothing
else changed but the block being ready; a micro-operation word as a micro-operation of a PERMUTE on the same lanes. How a
program comes to run is the model's convention (notes/assumptions/3.md, 6.md). -/
def Obligations.FetchWordRunsTheRow : Prop :=
  (∀ (s : State) (w : Nat) (i : Instr), decodeTableWord 16 w = some i →
    step (s.withFetchWord 16 w) = exec i { s.taken s.input with activity := .rest }) ∧
  (∀ (s : State) (w : Nat) (i : Instr), decodeTableWord 8 w = some i →
    ∃ (s0 t : State) (c : Caller), s0.lanes = s.lanes ∧ exec i s0 = .next t ∧
      step (s.withFetchWord 8 w) = .next (settle c t))

/-- No step ever stops, in any state (R77, R169, R171). -/
def Obligations.EveryStepAnswersNext : Prop :=
  ∀ s : State, ∃ t, step s = .next t

/-- Every accepted command completes in its step with exactly one response; it takes its own word and no other, and the
block is ready again (R55, R120, R163, R169). -/
def Obligations.CommandCompletesWithOneResponse : Prop :=
  ∀ (s : State) (w : CmdWord) (rest : List HostEvent), s.offered w rest →
    ∃ t r, step s = .next t ∧ t.rsp = some r ∧ t.input = rest ∧ t.cmdReady = true

/-- With nothing presented the block holds its state, and no response is given (R60, R151). That the output ports of an
idle step are clear is the model's convention (notes/assumptions/4.md). -/
def Obligations.IdleStepHoldsState : Prop :=
  ∀ s : State, s.activity = .rest → s.input = [] → step s = .next { s with rsp := none, tap := [] }

/-! ## The Permutation Engine (40_permutation.md) -/

/-- THETA (R70): every lane (x, y) is XORed with C[x-1] ^ rotl(C[x+1], 1), C[x] being the parity of column x on entry;
run where SEQ is at it, it gives one
post-theta event and SEQ moves to RHOPI; nothing else changes (R79). -/
def Obligations.ThetaResult : Prop :=
  ∀ (r : Fin 24) (s : State), encode (.theta r) = .micro (BitVec.ofNat 5 r.val ++ 0#2) ∧
    ∃ (l : Lanes) (q : Sequencer) (es : List TapEvent),
    exec (.theta r) s = .next { s with lanes := l, seq := q, tap := es } ∧
    (s.seq = ⟨r, .theta⟩ → q = ⟨r, .rhopi⟩ ∧ es = if s.hasTap then s.tap ++ [⟨.postTheta, r, l⟩] else s.tap) ∧
    ∀ x y : Fin 5, l.lane x y = s.lanes.lane x y ^^^
      ((s.lanes.lane (x - 1) 0 ^^^ s.lanes.lane (x - 1) 1 ^^^ s.lanes.lane (x - 1) 2 ^^^ s.lanes.lane (x - 1) 3 ^^^
          s.lanes.lane (x - 1) 4) ^^^
        (s.lanes.lane (x + 1) 0 ^^^ s.lanes.lane (x + 1) 1 ^^^ s.lanes.lane (x + 1) 2 ^^^ s.lanes.lane (x + 1) 3 ^^^
          s.lanes.lane (x + 1) 4).rotateLeft 1)

/-- RHOPI (R71): the lane of (x, y), rotated left by RHO[x][y], arrives at (y, 2x + 3y); run where SEQ is
at it, it gives one post-rho/pi event and SEQ moves to CHI; nothing else changes (R79). -/
def Obligations.RhopiResult : Prop :=
  ∀ (r : Fin 24) (s : State), encode (.rhopi r) = .micro (BitVec.ofNat 5 r.val ++ 1#2) ∧
    ∃ (l : Lanes) (q : Sequencer) (es : List TapEvent),
    exec (.rhopi r) s = .next { s with lanes := l, seq := q, tap := es } ∧
    (s.seq = ⟨r, .rhopi⟩ → q = ⟨r, .chi⟩ ∧ es = if s.hasTap then s.tap ++ [⟨.postRhopi, r, l⟩] else s.tap) ∧
    ∀ x y : Fin 5, l.lane y (2 * x + 3 * y) = (s.lanes.lane x y).rotateLeft (RHO x y).val

/-- CHI (R72): every lane is XORed with ~A[x+1, y] & A[x+2, y] of the lanes on entry; run where SEQ is at it, it
gives one post-chi event and SEQ moves to IOTA; nothing else changes (R79). -/
def Obligations.ChiResult : Prop :=
  ∀ (r : Fin 24) (s : State), encode (.chi r) = .micro (BitVec.ofNat 5 r.val ++ 2#2) ∧
    ∃ (l : Lanes) (q : Sequencer) (es : List TapEvent),
    exec (.chi r) s = .next { s with lanes := l, seq := q, tap := es } ∧
    (s.seq = ⟨r, .chi⟩ → q = ⟨r, .iota⟩ ∧ es = if s.hasTap then s.tap ++ [⟨.postChi, r, l⟩] else s.tap) ∧
    ∀ x y : Fin 5, l.lane x y = s.lanes.lane x y ^^^ (~~~(s.lanes.lane (x + 1) y) &&& s.lanes.lane (x + 2) y)

/-- IOTA (R73): A[0, 0] is XORed with RC[r] and the other 24 lanes are unchanged; run where SEQ is at it, it
gives one post-iota event and SEQ moves to the next round, or to (0, 0) after round 23 (R76); nothing else changes
(R79). -/
def Obligations.IotaResult : Prop :=
  ∀ (r : Fin 24) (s : State), encode (.iota r) = .micro (BitVec.ofNat 5 r.val ++ 3#2) ∧
    ∃ (l : Lanes) (q : Sequencer) (es : List TapEvent),
    exec (.iota r) s = .next { s with lanes := l, seq := q, tap := es } ∧
    (s.seq = ⟨r, .iota⟩ → q.stp = .theta ∧ (q.rnd.val = if r.val < 23 then r.val + 1 else 0) ∧
      es = if s.hasTap then s.tap ++ [⟨.postIota, r, l⟩] else s.tap) ∧
    (∀ x y : Fin 5, l.lane x y = if x = 0 ∧ y = 0 then s.lanes.lane 0 0 ^^^ RC r else s.lanes.lane x y)

/-- A micro-operation goes by the word it is run from, whatever SEQ holds: it emits that round's event, and SEQ moves to
the word that follows it (R76). Where SEQ holds another word this is the model's choice (notes/assumptions/10.md); in a
run it holds this one. -/
def Obligations.MicroOpGoesByItsOwnWord : Prop :=
  ∀ (q : Sequencer) (s : State), ∃ t : State, exec q.instr s = .next t ∧
    t.seq = q.next ∧ (t.tap.map fun e => (e.kind, e.rnd)) =
      (s.tap.map fun e => (e.kind, e.rnd)) ++ (if s.hasTap then [(q.stp.tapKind, q.rnd)] else [])

/-- Sequencer advance (R76): STP + 1 below 3; else the next round's THETA; else (0, 0). As micro-operation words this is
0, 1, 2, ..., 95 and back to 0 (R56), and it is what the micro-operation SEQ is at does to SEQ. A PERMUTE is 96 of them:
SEQ is back at (0, 0) after the last and after no earlier one, whatever the lanes hold. -/
def Obligations.SequencerAdvance : Prop :=
  (∀ q : Sequencer, ((BitVec.ofNat 5 q.next.rnd.val ++ q.next.stp.code : MicroWord)).toNat =
    ((BitVec.ofNat 5 q.rnd.val ++ q.stp.code : MicroWord).toNat + 1) % 96) ∧
  (∀ s : State, ∃ t, exec s.seq.instr s = .next t ∧
    (s.seq.stp.code.toNat < 3 → t.seq.rnd = s.seq.rnd ∧ t.seq.stp.code.toNat = s.seq.stp.code.toNat + 1) ∧
    (s.seq.stp.code.toNat = 3 → s.seq.rnd.val < 23 → t.seq.rnd.val = s.seq.rnd.val + 1 ∧ t.seq.stp.code = 0) ∧
    (s.seq.stp.code.toNat = 3 → s.seq.rnd.val = 23 → t.seq.rnd.val = 0 ∧ t.seq.stp.code = 0)) ∧
  (∀ s : State, permute s = microRun 96 { s with seq := ⟨0, .theta⟩ } ∧ (permute s).seq = ⟨0, .theta⟩ ∧
    ∀ k : Nat, 1 ≤ k → k ≤ 95 → (microRun k { s with seq := ⟨0, .theta⟩ }).seq ≠ ⟨0, .theta⟩)

/-- PERMUTE of the zero state, and of that again (V21): it is no involution (R81). -/
def Obligations.PermuteKnownAnswers : Prop :=
  (permuteLanes .zero).lane 0 0 = 0xF1258F7940E1DDE7 ∧
  (permuteLanes (permuteLanes .zero)).lane 0 0 = 0x2D5C954DF96ECB3C

/-- The round constants are those the LFSR of R19 generates, and only the bits 0, 1, 3, 7, 15, 31 and 63 of one can be
1 (R18). -/
def Obligations.RoundConstantsFromLfsr : Prop :=
  (∀ r : Fin 24, RC r = lfsrRoundConstant r.val) ∧
  (∀ (r : Fin 24) (b : Fin 64), (RC r).getLsbD b.val = true → b.val ∈ [0, 1, 3, 7, 15, 31, 63])

/-- The rotation amounts are those of the walk of R21, which visits each of the 24 positions other than (0, 0) once. -/
def Obligations.RotationAmountsFromWalk : Prop :=
  (∀ x y : Fin 5, (RHO x y).val = walkAmount x y) ∧
  (∀ x y : Fin 5, (x, y) ≠ (0, 0) → ∃! t : Fin 24, rhoWalk t.val = (x, y)) ∧
  (∀ t : Fin 24, rhoWalk t.val ≠ (0, 0))

/-- `rotl(v, n)` moves bit b to bit (b + n) mod 64; it is v for n = 0 and the OR of the two shifts otherwise (R3). -/
def Obligations.RotlMovesEveryBit : Prop :=
  ∀ (v : Lane) (n b : Fin 64),
    (rotl v n).getLsbD ((b.val + n.val) % 64) = v.getLsbD b.val ∧
    rotl v 0 = v ∧ (n ≠ 0 → rotl v n = (v <<< n.val) ||| (v >>> (64 - n.val)))

/-- RHOPI, CHI and IOTA lose nothing: equal results come from equal lanes (a part of R82, which THETA and PERMUTE are
also under). -/
def Obligations.RhopiChiIotaInjective : Prop :=
  ∀ a b : Lanes, (rhopi a = rhopi b → a = b) ∧ (chi a = chi b → a = b) ∧
    (∀ r : Fin 24, iota r a = iota r b → a = b)

/-! ## Bytes, blocks and padding (20_memory.md, 41_sponge.md) -/

/-- The state byte space (R31): byte a is bits 8(a mod 8)+7 : 8(a mod 8) of lane a div 8, and a lane is its eight bytes,
the first in its least significant place; lane i is the lane at x = i mod 5, y = i div 5 (R4). -/
def Obligations.StateBytesAreLittleEndian : Prop :=
  (∀ (l : Lanes) (a : Fin 200) (b : Fin 8),
    (stRead l a).getLsbD b.val = (l.get ⟨a.val / 8, by omega⟩).getLsbD (8 * (a.val % 8) + b.val)) ∧
  (∀ (l : Lanes) (i : Fin 25), l.get i =
    stRead l ⟨8 * i.val + 7, by omega⟩ ++ stRead l ⟨8 * i.val + 6, by omega⟩ ++ stRead l ⟨8 * i.val + 5, by omega⟩ ++
    stRead l ⟨8 * i.val + 4, by omega⟩ ++ stRead l ⟨8 * i.val + 3, by omega⟩ ++ stRead l ⟨8 * i.val + 2, by omega⟩ ++
    stRead l ⟨8 * i.val + 1, by omega⟩ ++ stRead l ⟨8 * i.val, by omega⟩) ∧
  (∀ (l : Lanes) (x y : Fin 5), l.get ⟨x.val + 5 * y.val, by omega⟩ = l.lane x y)

/-- A byte written to ST is read back, and every other byte reads as before (R32). -/
def Obligations.StateWriteReplacesOneByte : Prop :=
  ∀ (l : Lanes) (a : Fin 200) (v : Byte),
    stRead (stWrite l a v) a = v ∧ ∀ a' : Fin 200, a' ≠ a → stRead (stWrite l a v) a' = stRead l a'

/-- XORBLK (R101): byte k of the block is XORed into byte k of ST for k = 0 to 135, the capacity bytes 136 to 199 are
unchanged; equally, lane i takes the bytes 8i + 7 to 8i of the block for i = 0 to 16 and lanes 17 to 24 are not touched;
and this is the byte-by-byte loop of R101. -/
def Obligations.XorBlockBytes : Prop :=
  ∀ (blk : Block) (l : Lanes),
    (∀ a : Fin 200, stRead (xorBlk blk l) a = if h : a.val < 136 then stRead l a ^^^ blk[a.val] else stRead l a) ∧
    (∀ i : Fin 17, (xorBlk blk l).get ⟨i.val, by omega⟩ = l.get ⟨i.val, by omega⟩ ^^^
      (blk[8 * i.val + 7] ++ blk[8 * i.val + 6] ++ blk[8 * i.val + 5] ++ blk[8 * i.val + 4] ++
        blk[8 * i.val + 3] ++ blk[8 * i.val + 2] ++ blk[8 * i.val + 1] ++ blk[8 * i.val])) ∧
    (∀ i : Fin 25, 17 ≤ i.val → (xorBlk blk l).get i = l.get i) ∧
    xorBlk blk l = xorBlkBytes blk l

/-- PADBLK (R103): byte k of the block is BUF[k] below OFF, 0x01 at OFF, 0x00 above, and 0x80 is ORed into byte 135; so
the block is 01 00 ... 00 80 for OFF = 0, the OFF buffered bytes, 01, 134 - OFF zero bytes and 80 for OFF up to 134, and
135 buffered bytes and 81 for OFF = 135. -/
def Obligations.PaddingRule : Prop :=
  ∀ (buf : Block) (off : BitVec 8), off.toNat ≤ 135 →
    (∀ k : Fin 136, (padBlk buf off)[k.val] =
      (if k.val < off.toNat then buf[k.val] else if k.val = off.toNat then 0x01 else 0x00) |||
        (if k.val = 135 then 0x80 else 0x00)) ∧
    (off.toNat = 0 → (padBlk buf off).toList = [0x01] ++ List.replicate 134 0x00 ++ [0x80]) ∧
    (off.toNat ≤ 134 → (padBlk buf off).toList =
      buf.toList.take off.toNat ++ [0x01] ++ List.replicate (134 - off.toNat) 0x00 ++ [0x80]) ∧
    (off.toNat = 135 → (padBlk buf off).toList = buf.toList.take 135 ++ [0x81])

/-- The padding of a message (R106, R105): pad(t) is 01, zeros and 80, or the one byte 81 for t = 135, 136 - t bytes in
all; the padded message is the next multiple of 136 strictly above the message's length; and PADBLK is the buffered bytes
followed by pad(OFF). -/
def Obligations.PaddedMessageLength : Prop :=
  (∀ t : Nat, t ≤ 134 → pad t = 0x01 :: (List.replicate (134 - t) 0x00 ++ [0x80])) ∧ pad 135 = [0x81] ∧
  (∀ t : Nat, t ≤ 135 → (pad t).length = 136 - t) ∧
  (∀ m : List Byte, (padded m).length = 136 * (m.length / 136 + 1) ∧ m.length < (padded m).length ∧
    (padded m).length ≤ m.length + 136) ∧
  (∀ (buf : Block) (off : BitVec 8), off.toNat ≤ 135 →
    (padBlk buf off).toList = buf.toList.take off.toNat ++ pad off.toNat)

/-- A message whose length is a multiple of 136 has each of its full blocks once, and then the separate all-padding block
01 00 ... 00 80 (R110, R107). -/
def Obligations.FullBlocksThenPaddingBlock : Prop :=
  ∀ (bs : List Block),
    blocks (bs.flatMap Vector.toList) = bs ++ [padBlk (Vector.replicate 136 0) 0]

/-! ## Commands (42_commands.md) -/

/-- INIT (R121): in every phase and state the 25 lanes become zero, OFF 0, PHASE ABSORB, ECODE 0, and the response is
(0, 0x00); BUF and all else are unchanged. A non-zero operand faults with RSVARG. -/
def Obligations.InitStartsComputation : Prop :=
  (∀ s : State, ∃ l : Lanes, (∀ i : Fin 25, l.get i = 0) ∧
    exec (.init 0) s = .next { s with
      lanes := l, off := 0, phase := .absorb, ecode := .none, rsp := some ⟨false, 0x00⟩ }) ∧
  (∀ (a : Byte) (s : State), a ≠ 0 → exec (.init a) s = .next (raiseFault .rsvarg s))

/-- ABSORB b with OFF at most 134 (R122, R100): the byte is stored at BUF[OFF], OFF is one more; every other byte of BUF,
the lanes and all else are unchanged, and there is no tap event. -/
def Obligations.AbsorbStoresByte : Prop :=
  ∀ (b : Byte) (s : State), s.phase = .absorb → s.off.toNat ≤ 134 → ∃ buf : Block,
    exec (.absorb b) s = .next { s with buf := buf, off := s.off + 1, rsp := some ⟨false, 0x00⟩ } ∧
    (s.off + 1).toNat = s.off.toNat + 1 ∧
    ∀ k : Fin 136, buf[k.val] = if k.val = s.off.toNat then b else s.buf[k.val]

/-- ABSORB b with OFF = 135 (R122, R102): the byte completes the block, which the same command XORs into the lanes and
permutes; OFF is 0 again, the phase stays ABSORB, 97 events are emitted, and nothing else changes. -/
def Obligations.AbsorbCompletesBlock : Prop :=
  ∀ (b : Byte) (s : State), s.phase = .absorb → s.activity = .rest → s.off = 135 → ∃ buf : Block,
    exec (.absorb b) s = .next { s with
      lanes := permuteLanes (xorBlk buf s.lanes), buf := buf, off := 0, seq := ⟨0, .theta⟩, rsp := some ⟨false, 0x00⟩,
      tap := if s.hasTap then
        s.tap ++ (⟨.postXor, 0, xorBlk buf s.lanes⟩ :: permuteEvents (xorBlk buf s.lanes)) else s.tap } ∧
    ∀ k : Fin 136, buf[k.val] = if k.val = 135 then b else s.buf[k.val]

/-- FINAL (R123): the padded block is XORed into the lanes and permuted, OFF is 0, the phase DONE; 98 events are emitted,
the last of kind final-state; BUF and all else are unchanged. A non-zero operand faults with RSVARG, and every phase but
ABSORB with BADPHASE. -/
def Obligations.FinalAbsorbsPaddedBlock : Prop :=
  (∀ s : State, s.phase = .absorb → s.activity = .rest → s.off.toNat ≤ 135 → ∃ blk : Block,
    exec (.final 0) s = .next { s with
      lanes := permuteLanes (xorBlk blk s.lanes), off := 0, phase := .done, seq := ⟨0, .theta⟩,
      rsp := some ⟨false, 0x00⟩,
      tap := if s.hasTap then
        s.tap ++ (⟨.postXor, 0, xorBlk blk s.lanes⟩ :: permuteEvents (xorBlk blk s.lanes)) ++
          [⟨.finalState, 0, permuteLanes (xorBlk blk s.lanes)⟩] else s.tap } ∧
    ∀ k : Fin 136, blk[k.val] =
      (if k.val < s.off.toNat then s.buf[k.val] else if k.val = s.off.toNat then 0x01 else 0x00) |||
        (if k.val = 135 then 0x80 else 0x00)) ∧
  (∀ (a : Byte) (s : State), a ≠ 0 → exec (.final a) s = .next (raiseFault .rsvarg s)) ∧
  (∀ s : State, s.phase ≠ .absorb → exec (.final 0) s = .next (raiseFault .badphase s))

/-- RDIG i with i at most 31 in phase DONE (R124, R104): the response is (0, byte i of ST), and nothing else changes. An
index of 32 or more faults with BADIDX in every phase, and a legal one outside DONE with BADPHASE. -/
def Obligations.RdigReadsDigestByte : Prop :=
  (∀ (idx : Byte) (s : State), s.phase = .done → (h : idx.toNat < 32) → ∃ d : Byte,
    exec (.rdig idx) s = .next { s with rsp := some ⟨false, d⟩ } ∧
    ∀ b : Fin 8, d.getLsbD b.val =
      (s.lanes.get ⟨idx.toNat / 8, by omega⟩).getLsbD (8 * (idx.toNat % 8) + b.val)) ∧
  (∀ (idx : Byte) (s : State), 32 ≤ idx.toNat → exec (.rdig idx) s = .next (raiseFault .badidx s)) ∧
  (∀ (idx : Byte) (s : State), idx.toNat < 32 → s.phase ≠ .done →
    exec (.rdig idx) s = .next (raiseFault .badphase s))

/-- RDSR 0 and RDSR 1 in every phase (R125, R17): the response is (ECODE << 4) | PHASE, or OFF, and nothing else
changes. Any other number faults with BADIDX. -/
def Obligations.RdsrReadsStatus : Prop :=
  ∀ s : State,
    (∃ d : Byte, d.toNat = 16 * s.ecode.code.toNat + s.phase.code.toNat ∧
      exec (.rdsr 0) s = .next { s with rsp := some ⟨false, d⟩ }) ∧
    exec (.rdsr 1) s = .next { s with rsp := some ⟨false, s.off⟩ } ∧
    (∀ n : Byte, 2 ≤ n.toNat → exec (.rdsr n) s = .next (raiseFault .badidx s))

/-- Reads have no side effects (R37): after any sequence of legal RDSR commands in any phase, and of legal RDIG commands
too in phase DONE, nothing but the ports has changed, and a following RDIG or RDSR gives what it gave before. -/
def Obligations.ReadsHaveNoSideEffects : Prop :=
  ∀ (s : State) (ws : List CmdWord), s.activity = .rest →
    (∀ w ∈ ws, (s.phase = .done ∧ ∃ i : Byte, i.toNat < 32 ∧ w = cmdWord 0x04 i) ∨
      (∃ n : Byte, n.toNat < 2 ∧ w = cmdWord 0x05 n)) →
    ∃ t, run ws.length (s.present (ws.map .command)) = .next t ∧
      t = { s with input := [], rsp := t.rsp, tap := t.tap } ∧
      (∀ (i : Byte) (u v : State), exec (.rdig i) s = .next u → exec (.rdig i) t = .next v → v.rsp = u.rsp) ∧
      (∀ (n : Byte) (u v : State), exec (.rdsr n) s = .next u → exec (.rdsr n) t = .next v → v.rsp = u.rsp)

/-- The next phase for every command and phase (R126): a legal command that its phase allows; BADPHASE where it does
not, with ECODE kept in FAULT; and FAULT for every word that fails the word-level checks. -/
def Obligations.PhaseTransitions : Prop :=
  ∀ (s : State) (b i n : Byte), i.toNat < 32 → n.toNat < 2 →
    let refusedByPhase := fun t : State => t.phase = .fault ∧ t.rsp = some ⟨true, 4⟩ ∧
      t.ecode = if s.phase = .fault then s.ecode else .badphase
    (∃ t, exec (.init 0) s = .next t ∧ t.phase = .absorb) ∧
    (∃ t, exec (.absorb b) s = .next t ∧ if s.phase = .absorb then t.phase = .absorb else refusedByPhase t) ∧
    (∃ t, exec (.final 0) s = .next t ∧ if s.phase = .absorb then t.phase = .done else refusedByPhase t) ∧
    (∃ t, exec (.rdig i) s = .next t ∧ if s.phase = .done then t.phase = .done else refusedByPhase t) ∧
    (∃ t, exec (.rdsr n) s = .next t ∧ t.phase = s.phase) ∧
    (∀ (w : CmdWord) (rest : List HostEvent), s.offered w rest →
      (¬ ∃ j, decodeCommand w = .ok j ∧ j.wellFormed = true) → ∃ t, step s = .next t ∧ t.phase = .fault)

/-! ## Faults (60_exceptions.md) -/

/-- Fault entry (R142): outside FAULT, ECODE takes the cause and PHASE becomes FAULT; in FAULT neither changes; the
response is (1, zext_8(c)) with the codes of R140; nothing else changes. -/
def Obligations.FaultEntry : Prop :=
  ∀ (c : Cause) (s : State), ∃ d : Byte,
    d.toNat = (match c with | .illop => 1 | .rsvarg => 2 | .badidx => 3 | .badphase => 4) ∧
    c.ecode.code.toNat = d.toNat ∧
    raiseFault c s = if s.phase = .fault then { s with rsp := some ⟨true, d⟩ }
      else { s with ecode := c.ecode, phase := .fault, rsp := some ⟨true, d⟩ }

/-- A command reports at most one cause, the first that applies in the order ILLOP, RSVARG, BADIDX, BADPHASE, and then
does nothing but enter the fault; a command no check stops does not fault (R120, R140, R141). -/
def Obligations.FaultPriority : Prop :=
  ∀ (s : State) (w : CmdWord) (rest : List HostEvent), s.offered w rest →
    let op := w.toNat / 256
    let arg := w.toNat % 256
    let faults := fun c : Cause => ∃ es, step s = .next { raiseFault c s with input := rest, tap := es }
    if op < 1 ∨ 5 < op then faults .illop
    else if (op = 1 ∨ op = 3) ∧ arg ≠ 0 then faults .rsvarg
    else if (op = 4 ∧ 32 ≤ arg) ∨ (op = 5 ∧ 2 ≤ arg) then faults .badidx
    else if ((op = 2 ∨ op = 3) ∧ s.phase ≠ .absorb) ∨ (op = 4 ∧ s.phase ≠ .done) then faults .badphase
    else ∃ t d, step s = .next t ∧ t.rsp = some ⟨false, d⟩

/-- In phase FAULT, INIT and the two legal RDSR words are carried out normally; every other word faults again, with its
word-level cause or else BADPHASE in the response, and changes nothing, ECODE included (R143). -/
def Obligations.FaultsInFaultChangeNothing : Prop :=
  ∀ (s : State) (w : CmdWord) (rest : List HostEvent), s.offered w rest → s.phase = .fault →
    let op := w.toNat / 256
    let arg := w.toNat % 256
    ∃ es, if w = 0x0100 then ∃ l : Lanes, (∀ i, l.get i = 0) ∧
      step s = .next { s with
        lanes := l, off := 0, phase := .absorb, ecode := .none, input := rest, rsp := some ⟨false, 0⟩, tap := es }
    else if w = 0x0500 then step s = .next { s with input := rest, rsp := some ⟨false, s.sr0⟩, tap := es }
    else if w = 0x0501 then step s = .next { s with input := rest, rsp := some ⟨false, s.sr1⟩, tap := es }
    else step s = .next { s with input := rest, tap := es, rsp := some ⟨true,
      if op < 1 ∨ 5 < op then 1 else if (op = 1 ∨ op = 3) ∧ arg ≠ 0 then 2
      else if (op = 4 ∧ 32 ≤ arg) ∨ (op = 5 ∧ 2 ≤ arg) then 3 else 4⟩ }

/-- The only ways out of phase FAULT are INIT, which clears ECODE, zeroes the lanes and starts a new computation, and
reset (R144), in the states the invariant allows. -/
def Obligations.OnlyInitAndResetLeaveFault : Prop :=
  ∀ s t : State, s.Inv → s.phase = .fault → step s = .next t → t.phase ≠ .fault →
    (s.input.head? = some .reset ∧ t.phase = .idle) ∨
    (s.input.head? = some (.command 0x0100) ∧ t.phase = .absorb ∧ t.ecode = .none ∧ t.off = 0 ∧
      ∀ i, t.lanes.get i = 0)

/-- A fault is never silent and never retried (R145): the same word presented again faults again, with the same code, and
changes nothing more; and a word with an illegal opcode, a reserved operand or an index out of range faults always: no
operand is corrected, no index truncated, no reserved operand ignored. -/
def Obligations.SameWordFaultsAgain : Prop :=
  (∀ (s t : State) (w : CmdWord) (rest : List HostEvent) (d : Byte),
    s.offered w (.command w :: rest) → step s = .next t → t.rsp = some ⟨true, d⟩ →
    ∃ es, step t = .next { t with input := rest, rsp := some ⟨true, d⟩, tap := es }) ∧
  (∀ (s : State) (w : CmdWord) (rest : List HostEvent), s.offered w rest →
    ¬ (w.toNat = 0x0100 ∨ (0x0200 ≤ w.toNat ∧ w.toNat ≤ 0x02FF) ∨ w.toNat = 0x0300 ∨
      (0x0400 ≤ w.toNat ∧ w.toNat ≤ 0x041F) ∨ w.toNat = 0x0500 ∨ w.toNat = 0x0501) →
    ∃ t d, step s = .next t ∧ t.phase = .fault ∧ t.rsp = some ⟨true, d⟩)

/-! ## Reset and the invariant (70_reset_and_hazards.md, 10_state.md) -/

/-- The reset state of either kind of copy (R160): PHASE IDLE, ECODE 0, OFF 0, SEQ (0, 0), SR0 = SR1 = 0x00, the port
ready, no response and no tap event pending. The lanes and BUF are open in R160 and not stated here. -/
def Obligations.ResetRegisters : Prop :=
  State.reset = State.resetOf State.reset.hasTap ∧
  ∀ h : Bool, (State.resetOf h).phase.code = 0 ∧ (State.resetOf h).ecode.code = 0 ∧ (State.resetOf h).off = 0 ∧
    (State.resetOf h).seq.rnd.val = 0 ∧ (State.resetOf h).seq.stp.code = 0 ∧
    (State.resetOf h).sr0 = 0x00 ∧ (State.resetOf h).sr1 = 0x00 ∧ (State.resetOf h).cmdReady = true ∧
    (State.resetOf h).rsp = none ∧ (State.resetOf h).tap = []

/-- Reset from any state, also with a command in progress, gives a state of R160 and no response (R161); what the host
presents afterwards is kept, and the history before it has no effect on anything the host is then shown. The lanes and
BUF are open in R160 and not stated here. -/
def Obligations.ResetAbandonsEverything : Prop :=
  (∀ (s : State) (rest : List HostEvent), s.input = .reset :: rest →
    ∃ t, step s = .next t ∧ t.rsp = none ∧
      t = { State.resetOf s.hasTap with lanes := t.lanes, buf := t.buf, input := rest }) ∧
  (∀ (s s' : State) (rest : List HostEvent) (n : Nat), s.input = .reset :: rest → s'.input = .reset :: rest →
    s.hasTap = s'.hasTap → shownBy n s = shownBy n s')

/-- The invariant of the block holds in the reset state. -/
def Obligations.InvariantAtReset : Prop := ∀ h : Bool, (State.resetOf h).Inv

/-- Every step keeps the invariant (R13, R15, R16): ECODE is non-zero exactly in FAULT, OFF is 0 in IDLE and DONE, at most
135 at rest and 136 exactly inside a block-completing ABSORB, SEQ is (0, 0) at rest, and a PERMUTE runs in phase ABSORB
only. -/
def Obligations.StepKeepsInvariant : Prop :=
  ∀ s t : State, s.Inv → step s = .next t → t.Inv

/-- The status registers (R17): SR0 holds ECODE in [7:4], zero in [3:2] and PHASE in [1:0] and, in the states the
invariant allows, takes seven values only; SR1 is OFF, at most 135 at rest; both are 0 after reset; RDSR reads them, and
RDSR of any other number faults with BADIDX. They are views, so what changes them is what changes PHASE, ECODE and OFF. -/
def Obligations.StatusRegisterValues : Prop :=
  (∀ s : State,
    (s.sr0.extractLsb' 4 4 = s.ecode.code ∧ s.sr0.extractLsb' 2 2 = 0 ∧ s.sr0.extractLsb' 0 2 = s.phase.code) ∧
    s.sr1 = s.off ∧
    (s.Inv → s.sr0 ∈ ([0x00, 0x01, 0x02, 0x13, 0x23, 0x33, 0x43] : List Byte) ∧
      (s.cmdReady = true → s.sr1.toNat ≤ 135)) ∧
    exec (.rdsr 0) s = .next { s with rsp := some ⟨false, s.sr0⟩ } ∧
    exec (.rdsr 1) s = .next { s with rsp := some ⟨false, s.sr1⟩ } ∧
    (∀ n : Byte, 2 ≤ n.toNat → exec (.rdsr n) s = .next (raiseFault .badidx s))) ∧
  (∀ h : Bool, (State.resetOf h).sr0 = 0 ∧ (State.resetOf h).sr1 = 0)

/-! ## What the host can and cannot learn -/

/-- State bytes 32 to 199 and BUF cannot be read by any command in any phase, no state byte can be read in any phase but
DONE, and there RDIG faults (R39): the response of a step does not depend on them. -/
def Obligations.OnlyDigestWindowIsReadable : Prop :=
  ∀ (s t t' : State) (l : Lanes) (buf : Block),
    (s.phase ≠ .done ∨ ∀ a : Fin 200, a.val < 32 → stRead l a = stRead s.lanes a) →
    step s = .next t → step { s with lanes := l, buf := buf } = .next t' →
    t'.rsp = t.rsp ∧
    (s.phase ≠ .done → ∀ (i : Byte) (u : State), exec (.rdig i) s = .next u → ∃ d, u.rsp = some ⟨true, d⟩)

/-- The tap changes nothing (R152, R112): a copy with the tap and one without step alike in every register, response
and input, and without a tap there are no events. -/
def Obligations.TapIsTransparent : Prop :=
  ∀ (s t : State) (h : Bool) (es : List TapEvent), step s = .next t →
    ∃ es', step { s with hasTap := h, tap := es } = .next { t with hasTap := h, tap := es' } ∧
      (h = false → es' = []) ∧ t.hasTap = s.hasTap

/-- The trace of a command (R152), in order: kind 0; then kinds 1 to 4 for each round; then kind 5 for FINAL: 97 events
for a block-completing ABSORB, 98 for FINAL, none for any other command. -/
def Obligations.TapEventsOfCommands : Prop :=
  ∀ (s : State), s.phase = .absorb → s.hasTap = true → s.tap = [] →
    (∀ b : Byte, s.off = 135 → ∃ t, exec (.absorb b) s = .next t ∧ t.tap.map (fun e => (e.kind, e.rnd)) =
      (.postXor, 0) :: (List.finRange 24).flatMap fun r =>
        [(.postTheta, r), (.postRhopi, r), (.postChi, r), (.postIota, r)]) ∧
    (∃ t, exec (.final 0) s = .next t ∧ t.tap.length = 98 ∧ t.tap.map (fun e => (e.kind, e.rnd)) =
      ((.postXor, 0) :: (List.finRange 24).flatMap fun r =>
        [(.postTheta, r), (.postRhopi, r), (.postChi, r), (.postIota, r)]) ++ [(.finalState, 0)]) ∧
    (∀ b : Byte, s.off.toNat ≤ 134 → ∃ t, exec (.absorb b) s = .next t ∧ t.tap = []) ∧
    (∀ a : Byte, ∃ t, exec (.init a) s = .next t ∧ t.tap = []) ∧
    (∀ i : Byte, (∃ t, exec (.rdig i) s = .next t ∧ t.tap = []) ∧ (∃ t, exec (.rdsr i) s = .next t ∧ t.tap = []))

/-- Data independence (R170): two states that agree on everything but the lanes and BUF step alike in OFF, PHASE, ECODE,
SEQ, the command in progress, whether the response is a fault, and the kinds of the trace events. -/
def Obligations.ControlIsDataIndependent : Prop :=
  ∀ (s t : State) (l : Lanes) (buf : Block), step s = .next t →
    ∃ t', step { s with lanes := l, buf := buf } = .next t' ∧
      t'.off = t.off ∧ t'.phase = t.phase ∧ t'.ecode = t.ecode ∧ t'.seq = t.seq ∧ t'.activity = t.activity ∧
      t'.input = t.input ∧ t'.rsp.map Response.fault = t.rsp.map Response.fault ∧
      t'.tap.map (fun e => (e.kind, e.rnd)) = t.tap.map (fun e => (e.kind, e.rnd))

/-- What R160 leaves open after reset can never be observed: for any two choices of the 25 lanes and the 136 bytes, and
anything the host does afterwards, every response and every trace event is the same. So no claim about responses or
events rests on the values log entry 1 names. -/
def Obligations.ResetValuesAreUnobservable : Prop :=
  ∀ (h : Bool) (l l' : Lanes) (buf buf' : Block) (events : List HostEvent) (n : Nat),
    shownBy n { State.resetOf h with lanes := l, buf := buf, input := events } =
      shownBy n { State.resetOf h with lanes := l', buf := buf', input := events }

/-- Nothing of an earlier computation survives an INIT (R121, R112): after it, whatever state the block was in before,
everything the host is shown is the same. -/
def Obligations.InitForgetsThePast : Prop :=
  ∀ (s s' : State) (events : List HostEvent) (n : Nat), s.activity = .rest → s'.activity = .rest →
    s.hasTap = s'.hasTap →
    shownBy n (s.present (.command 0x0100 :: events)) = shownBy n (s'.present (.command 0x0100 :: events))

/-! ## The function computed (41_sponge.md) -/

/-- The machine computes KECCAK256 (R109): from any phase and any state with no command in progress, INIT, one ABSORB per
byte and FINAL, none of which faults, leave PHASE = DONE and OFF = 0, and RDIG i then responds with byte i of
KECCAK256(m), for every message m and every i. -/
def Obligations.MachineComputesKeccak256 : Prop :=
  ∀ (m : List Byte) (s : State) (rest : List HostEvent), s.activity = .rest →
    ∃ t, run (m.length + 2) (s.present (hashEvents m ++ rest)) = .next t ∧
      (∀ o ∈ shownBy (m.length + 2) (s.present (hashEvents m ++ rest)), o.rsp = some ⟨false, 0x00⟩) ∧
      t.phase = .done ∧ t.off = 0 ∧ t.ecode = .none ∧ t.activity = .rest ∧ t.input = rest ∧
      ∀ i : Fin 32, exec (.rdig (BitVec.ofNat 8 i.val)) t =
        .next { t with rsp := some ⟨false, (keccak256 m)[i.val]⟩ }

/-- The empty message (R111): INIT; FINAL absorbs exactly one block, 01 00 ... 00 80, and RDIG then reads the digest
c5d2460186f7233c927e7db2dcc703c0e500b653ca82273b7bfad8045d85a470, from any state with no command in progress. -/
def Obligations.EmptyMessageDigest : Prop :=
  (blocks []).map Vector.toList = [[0x01] ++ List.replicate 134 0x00 ++ [0x80]] ∧
  ∀ s : State, s.activity = .rest →
    ∃ t, run 2 (s.present [.command 0x0100, .command 0x0300]) = .next t ∧
      t.lanes = absorbLanes .zero (padBlk s.buf 0) ∧ (padBlk s.buf 0).toList = [0x01] ++ List.replicate 134 0x00 ++ [0x80] ∧
      ∀ i : Fin 32, exec (.rdig (BitVec.ofNat 8 i.val)) t = .next { t with rsp := some ⟨false,
        ([0xC5, 0xD2, 0x46, 0x01, 0x86, 0xF7, 0x23, 0x3C, 0x92, 0x7E, 0x7D, 0xB2, 0xDC, 0xC7, 0x03, 0xC0,
          0xE5, 0x00, 0xB6, 0x53, 0xCA, 0x82, 0x27, 0x3B, 0x7B, 0xFA, 0xD8, 0x04, 0x5D, 0x85, 0xA4, 0x70] :
            List Byte).getD i.val 0⟩ }

/-- Carrying a command out at once and carrying it out micro-operation by micro-operation agree (R80, R120): from the
state in which FINAL, or the ABSORB that fills the buffer, has XORed its block in, 96 steps of the machine reach the
state the whole command answers, the trace events of the steps aside. -/
def Obligations.MicroSteppingMatchesCommand : Prop :=
  ∀ s : State, s.phase = .absorb → s.activity = .rest → s.noReset →
    (s.off.toNat ≤ 135 → ∃ a t, exec (.final 0) s = .next a ∧
      run 96 (beginBlock .final (padBlk s.buf s.off) s) = .next t ∧ t = { a with tap := t.tap }) ∧
    (∀ b : Byte, s.off = 135 → ∃ a t, exec (.absorb b) s = .next a ∧
      run 96 (beginBlock .absorb (bufPut b s).buf (bufPut b s)) = .next t ∧ t = { a with tap := t.tap })

/-- A command in progress is not interrupted by a word (R60, R120): in the first 95 steps of a PERMUTE the sequencer
counts 1 to 95, no response is given, no word is taken, and the block is not ready. -/
def Obligations.PermuteIsNotInterrupted : Prop :=
  ∀ (s : State) (c : Caller) (k : Nat), s.activity = .permuting c → s.seq = ⟨0, .theta⟩ → s.noReset →
    1 ≤ k → k ≤ 95 → ∃ t, run k s = .next t ∧
      (BitVec.ofNat 5 t.seq.rnd.val ++ t.seq.stp.code : MicroWord).toNat = k ∧
      t.rsp = none ∧ t.input = s.input ∧ t.cmdReady = false ∧ t.buf = s.buf ∧ t.off = s.off ∧ t.phase = s.phase ∧
      t.ecode = s.ecode

/-! ## The assembler (30_encoding.md section 9) -/

/-- The words of the assembler are those of R58, and an operand outside its range is refused, not truncated. -/
def Obligations.AssemblerWords : Prop :=
  assembleLine .init = some [0x0100] ∧ assembleLine .final = some [0x0300] ∧
  (∀ n : Nat, assembleLine (.absorb n) = if n ≤ 255 then some [BitVec.ofNat 16 (0x0200 + n)] else none) ∧
  (∀ n : Nat, assembleLine (.rdig n) = if n ≤ 31 then some [BitVec.ofNat 16 (0x0400 + n)] else none) ∧
  (∀ n : Nat, assembleLine (.rdsr n) = if n = 0 ∨ n = 1 then some [BitVec.ofNat 16 (0x0500 + n)] else none) ∧
  (∀ n : Nat, assembleLine (.word n) = if n ≤ 0xFFFF then some [BitVec.ofNat 16 n] else none)

/-- Chunk boundaries vanish (R59, R61): two UPDATE lines assemble to the words of one with all their bytes, and HASH of n
bytes is INIT, the bytes, FINAL and DIGEST, n + 34 commands. -/
def Obligations.ChunksAssembleAlike : Prop :=
  (∀ (xs ys : List Nat) (ls : List AsmLine),
    assemble (.update xs :: .update ys :: ls) = assemble (.update (xs ++ ys) :: ls)) ∧
  (∀ (bs : List Nat) (ls : List AsmLine),
    assemble (.hash bs :: ls) = assemble (.init :: .update bs :: .final :: .digest :: ls)) ∧
  (∀ (bs : List Nat) (ws : List CmdWord), assembleLine (.hash bs) = some ws → ws.length = bs.length + 34)

/-! ## Step lemmas of the runs above -/

/-- What the host cannot see stays unseen (R12, R39, R160): two states that differ only in the lanes in phases IDLE and
FAULT and in BUF at or above OFF step to two such states, which show the same response and the same events. -/
def Obligations.StepKeepsStatesAlike : Prop :=
  ∀ s s' t : State, s.alikeToHost s' → step s = .next t →
    ∃ t', step s' = .next t' ∧ t.alikeToHost t' ∧ t'.shown = t.shown

/-- The block holds the message it was given (R39, R105, R109): every step from rest keeps it true that in phase ABSORB the
lanes are the fold of the absorbed blocks of some message and BUF below OFF its remaining bytes, and that in phase DONE the
lanes are the final state of some message; it is true after reset; and the message is exact: INIT makes it empty, ABSORB b
appends b, and FINAL leaves the final state of the same message. -/
def Obligations.StepKeepsMessage : Prop :=
  (∀ h : Bool, (State.resetOf h).MessageInv) ∧
  (∀ s t : State, s.MessageInv → step s = .next t → t.MessageInv) ∧
  (∀ (s : State) (rest : List HostEvent), s.offered 0x0100 rest → ∃ t, step s = .next t ∧ t.absorbing []) ∧
  (∀ (m : List Byte) (s : State) (b : Byte) (rest : List HostEvent), s.absorbing m → s.offered (cmdWord 0x02 b) rest →
    ∃ t, step s = .next t ∧ t.absorbing (m ++ [b])) ∧
  (∀ (m : List Byte) (s : State) (rest : List HostEvent), s.absorbing m → s.offered 0x0300 rest →
    ∃ t, step s = .next t ∧ t.hashed m)
end

