-- ==== Sys2Proof/Laws/Decode.lean ====
section
/-! SUPPORT. The fields of a word that was put together from fields (R50, R56). -/

namespace Sys2Proof

@[simp] theorem cmdOp_cmdWord (op arg : Byte) : cmdOp (cmdWord op arg) = op := by
  apply BitVec.eq_of_toNat_eq
  simp only [cmdOp, cmdWord, BitVec.extractLsb'_toNat, BitVec.toNat_append, Nat.shiftLeft_eq, Nat.shiftRight_eq_div_pow]
  rw [← Nat.shiftLeft_eq, ← Nat.shiftLeft_add_eq_or_of_lt arg.isLt, Nat.shiftLeft_eq]
  have := op.isLt; have := arg.isLt; omega

@[simp] theorem cmdArg_cmdWord (op arg : Byte) : cmdArg (cmdWord op arg) = arg := by
  apply BitVec.eq_of_toNat_eq
  simp only [cmdArg, cmdWord, BitVec.extractLsb'_toNat, BitVec.toNat_append]
  rw [← Nat.shiftLeft_add_eq_or_of_lt arg.isLt, Nat.shiftLeft_eq]
  have := op.isLt; have := arg.isLt; omega

/-- The opcode byte as a number. -/
theorem cmdOp_toNat (w : CmdWord) : (cmdOp w).toNat = w.toNat / 256 := by
  simp only [cmdOp, BitVec.extractLsb'_toNat, Nat.shiftRight_eq_div_pow]
  have := w.isLt; omega

/-- The operand byte as a number. -/
theorem cmdArg_toNat (w : CmdWord) : (cmdArg w).toNat = w.toNat % 256 := by
  simp only [cmdArg, BitVec.extractLsb'_toNat, Nat.shiftRight_zero, Nat.reducePow]

@[simp] theorem microRnd_microWord (r : Fin 24) (p : BitVec 2) : (microRnd (microWord r p)).toNat = r.val := by
  revert r p; decide

@[simp] theorem microStp_microWord (r : Fin 24) (p : BitVec 2) : microStp (microWord r p) = p := by
  revert r p; decide

end Sys2Proof
end

