-- ==== Sys2Proof/Laws/Grid.lean ====
section
/-! SUPPORT. Reading back what was written into the grid: lanes by position and by number (R4, R10). -/

namespace Sys2Proof.Machine

@[simp] theorem Row.get_ofFn (f : Fin 5 → Lane) (x : Fin 5) : (Row.ofFn f).get x = f x := by
  fin_cases x <;> rfl

@[simp] theorem Lanes.row_ofGrid (f : Fin 5 → Fin 5 → Lane) (y : Fin 5) :
    (Lanes.ofGrid f).row y = Row.ofFn (f · y) := by
  fin_cases y <;> rfl

@[simp] theorem Lanes.lane_ofGrid (f : Fin 5 → Fin 5 → Lane) (x y : Fin 5) :
    (Lanes.ofGrid f).lane x y = f x y := by
  simp [Lanes.lane]

@[simp] theorem laneNumber_grid (i : Fin 25) : laneNumber (gridX i) (gridY i) = i := by
  apply Fin.ext; simp only [laneNumber, gridX, gridY]; omega

@[simp] theorem gridX_laneNumber (x y : Fin 5) : gridX (laneNumber x y) = x := by
  apply Fin.ext; simp only [laneNumber, gridX]; omega

@[simp] theorem gridY_laneNumber (x y : Fin 5) : gridY (laneNumber x y) = y := by
  apply Fin.ext; simp only [laneNumber, gridY]; omega

@[simp] theorem Lanes.get_ofFn (f : Fin 25 → Lane) (i : Fin 25) : (Lanes.ofFn f).get i = f i := by
  simp [Lanes.get, Lanes.ofFn]

@[simp] theorem Lanes.get_laneNumber (l : Lanes) (x y : Fin 5) : l.get (laneNumber x y) = l.lane x y := by
  simp [Lanes.get]

@[simp] theorem Lanes.lane_zero (x y : Fin 5) : Lanes.zero.lane x y = 0 := by simp [Lanes.zero]

@[simp] theorem Lanes.get_zero (i : Fin 25) : Lanes.zero.get i = 0 := by simp [Lanes.get]

/-- Two grids with the same lane at every position are the same grid. -/
theorem Lanes.ext_lane {a b : Lanes} (h : ∀ x y, a.lane x y = b.lane x y) : a = b := by
  have rows : ∀ r t : Row, (∀ x, r.get x = t.get x) → r = t := by
    intro r t hr
    obtain ⟨_, _, _, _, _⟩ := r
    obtain ⟨_, _, _, _, _⟩ := t
    have h0 := hr 0; have h1 := hr 1; have h2 := hr 2; have h3 := hr 3; have h4 := hr 4
    simp_all [Row.get]
  obtain ⟨a0, a1, a2, a3, a4⟩ := a
  obtain ⟨b0, b1, b2, b3, b4⟩ := b
  have h0 : a0 = b0 := rows _ _ fun x => h x 0
  have h1 : a1 = b1 := rows _ _ fun x => h x 1
  have h2 : a2 = b2 := rows _ _ fun x => h x 2
  have h3 : a3 = b3 := rows _ _ fun x => h x 3
  have h4 : a4 = b4 := rows _ _ fun x => h x 4
  subst h0 h1 h2 h3 h4; rfl

/-- Two grids with the same 25 lanes are the same grid. -/
theorem Lanes.ext_get {a b : Lanes} (h : ∀ i, a.get i = b.get i) : a = b :=
  Lanes.ext_lane fun x y => by simpa using h (laneNumber x y)

/-! ## The steps of a round and XORBLK, lane by lane -/

@[simp] theorem theta_lane (a : Lanes) (x y : Fin 5) : (theta a).lane x y = a.lane x y ^^^ thetaD a x := by
  simp [theta]

@[simp] theorem rhopi_lane (a : Lanes) (x y : Fin 5) :
    (rhopi a).lane x y = rotl (a.lane (x + 3 * y) x) (RHO (x + 3 * y) x) := by
  simp [rhopi]

@[simp] theorem chi_lane (a : Lanes) (x y : Fin 5) :
    (chi a).lane x y = a.lane x y ^^^ (~~~(a.lane (x + 1) y) &&& a.lane (x + 2) y) := by
  simp [chi]

@[simp] theorem iota_lane (r : Fin 24) (a : Lanes) (x y : Fin 5) :
    (iota r a).lane x y = if x = 0 ∧ y = 0 then a.lane x y ^^^ RC r else a.lane x y := by
  fin_cases y <;> fin_cases x <;> rfl

@[simp] theorem xorBlk_get (blk : Block) (l : Lanes) (i : Fin 25) :
    (xorBlk blk l).get i = if h : i.val < 17 then l.get i ^^^ blockLane blk ⟨i.val, h⟩ else l.get i := by
  simp [xorBlk]

@[simp] theorem stWrite_get (l : Lanes) (a : Fin 200) (v : Byte) (i : Fin 25) :
    (stWrite l a v).get i = if i = stLane a then setLaneByte (l.get i) (stByte a) v else l.get i := by
  simp [stWrite]

end Sys2Proof.Machine
end

