-- ==== Sys2Proof/Laws/State.lean ====
section
/-! SUPPORT. What each shared update of the state leaves in each field, so that no later proof unfolds a record update. -/

namespace Sys2Proof.Machine

/-! ## respond -/

@[simp] theorem respond_lanes (f : Bool) (d : Byte) (s : State) : (respond f d s).lanes = s.lanes := rfl
@[simp] theorem respond_buf (f : Bool) (d : Byte) (s : State) : (respond f d s).buf = s.buf := rfl
@[simp] theorem respond_off (f : Bool) (d : Byte) (s : State) : (respond f d s).off = s.off := rfl
@[simp] theorem respond_phase (f : Bool) (d : Byte) (s : State) : (respond f d s).phase = s.phase := rfl
@[simp] theorem respond_ecode (f : Bool) (d : Byte) (s : State) : (respond f d s).ecode = s.ecode := rfl
@[simp] theorem respond_seq (f : Bool) (d : Byte) (s : State) : (respond f d s).seq = s.seq := rfl
@[simp] theorem respond_activity (f : Bool) (d : Byte) (s : State) : (respond f d s).activity = s.activity := rfl
@[simp] theorem respond_hasTap (f : Bool) (d : Byte) (s : State) : (respond f d s).hasTap = s.hasTap := rfl
@[simp] theorem respond_input (f : Bool) (d : Byte) (s : State) : (respond f d s).input = s.input := rfl
@[simp] theorem respond_rsp (f : Bool) (d : Byte) (s : State) : (respond f d s).rsp = some ⟨f, d⟩ := rfl
@[simp] theorem respond_tap (f : Bool) (d : Byte) (s : State) : (respond f d s).tap = s.tap := rfl

/-! ## clearOutputs -/

@[simp] theorem clearOutputs_lanes (s : State) : (clearOutputs s).lanes = s.lanes := rfl
@[simp] theorem clearOutputs_buf (s : State) : (clearOutputs s).buf = s.buf := rfl
@[simp] theorem clearOutputs_off (s : State) : (clearOutputs s).off = s.off := rfl
@[simp] theorem clearOutputs_phase (s : State) : (clearOutputs s).phase = s.phase := rfl
@[simp] theorem clearOutputs_ecode (s : State) : (clearOutputs s).ecode = s.ecode := rfl
@[simp] theorem clearOutputs_seq (s : State) : (clearOutputs s).seq = s.seq := rfl
@[simp] theorem clearOutputs_activity (s : State) : (clearOutputs s).activity = s.activity := rfl
@[simp] theorem clearOutputs_hasTap (s : State) : (clearOutputs s).hasTap = s.hasTap := rfl
@[simp] theorem clearOutputs_input (s : State) : (clearOutputs s).input = s.input := rfl
@[simp] theorem clearOutputs_rsp (s : State) : (clearOutputs s).rsp = none := rfl
@[simp] theorem clearOutputs_tap (s : State) : (clearOutputs s).tap = [] := rfl

/-! ## emitTap -/

@[simp] theorem emitTap_lanes (k : TapKind) (r : Fin 24) (s : State) : (emitTap k r s).lanes = s.lanes := by
  unfold emitTap; split <;> rfl
@[simp] theorem emitTap_buf (k : TapKind) (r : Fin 24) (s : State) : (emitTap k r s).buf = s.buf := by
  unfold emitTap; split <;> rfl
@[simp] theorem emitTap_off (k : TapKind) (r : Fin 24) (s : State) : (emitTap k r s).off = s.off := by
  unfold emitTap; split <;> rfl
@[simp] theorem emitTap_phase (k : TapKind) (r : Fin 24) (s : State) : (emitTap k r s).phase = s.phase := by
  unfold emitTap; split <;> rfl
@[simp] theorem emitTap_ecode (k : TapKind) (r : Fin 24) (s : State) : (emitTap k r s).ecode = s.ecode := by
  unfold emitTap; split <;> rfl
@[simp] theorem emitTap_seq (k : TapKind) (r : Fin 24) (s : State) : (emitTap k r s).seq = s.seq := by
  unfold emitTap; split <;> rfl
@[simp] theorem emitTap_activity (k : TapKind) (r : Fin 24) (s : State) : (emitTap k r s).activity = s.activity := by
  unfold emitTap; split <;> rfl
@[simp] theorem emitTap_hasTap (k : TapKind) (r : Fin 24) (s : State) : (emitTap k r s).hasTap = s.hasTap := by
  unfold emitTap; split <;> rfl
@[simp] theorem emitTap_input (k : TapKind) (r : Fin 24) (s : State) : (emitTap k r s).input = s.input := by
  unfold emitTap; split <;> rfl
@[simp] theorem emitTap_rsp (k : TapKind) (r : Fin 24) (s : State) : (emitTap k r s).rsp = s.rsp := by
  unfold emitTap; split <;> rfl
@[simp] theorem emitTap_tap (k : TapKind) (r : Fin 24) (s : State) : (emitTap k r s).tap = if s.hasTap then s.tap ++ [⟨k, r, s.lanes⟩] else s.tap := by
  unfold emitTap; split <;> rfl

/-! ## raiseFault -/

@[simp] theorem raiseFault_lanes (c : Cause) (s : State) : (raiseFault c s).lanes = s.lanes := by
  unfold raiseFault; split <;> simp_all
@[simp] theorem raiseFault_buf (c : Cause) (s : State) : (raiseFault c s).buf = s.buf := by
  unfold raiseFault; split <;> simp_all
@[simp] theorem raiseFault_off (c : Cause) (s : State) : (raiseFault c s).off = s.off := by
  unfold raiseFault; split <;> simp_all
@[simp] theorem raiseFault_phase (c : Cause) (s : State) : (raiseFault c s).phase = .fault := by
  unfold raiseFault; split <;> simp_all
@[simp] theorem raiseFault_ecode (c : Cause) (s : State) : (raiseFault c s).ecode = if s.phase = .fault then s.ecode else c.ecode := by
  unfold raiseFault; split <;> simp_all
@[simp] theorem raiseFault_seq (c : Cause) (s : State) : (raiseFault c s).seq = s.seq := by
  unfold raiseFault; split <;> simp_all
@[simp] theorem raiseFault_activity (c : Cause) (s : State) : (raiseFault c s).activity = s.activity := by
  unfold raiseFault; split <;> simp_all
@[simp] theorem raiseFault_hasTap (c : Cause) (s : State) : (raiseFault c s).hasTap = s.hasTap := by
  unfold raiseFault; split <;> simp_all
@[simp] theorem raiseFault_input (c : Cause) (s : State) : (raiseFault c s).input = s.input := by
  unfold raiseFault; split <;> simp_all
@[simp] theorem raiseFault_rsp (c : Cause) (s : State) : (raiseFault c s).rsp = some ⟨true, c.data⟩ := by
  unfold raiseFault; split <;> simp_all
@[simp] theorem raiseFault_tap (c : Cause) (s : State) : (raiseFault c s).tap = s.tap := by
  unfold raiseFault; split <;> simp_all

/-! ## startComputation -/

@[simp] theorem startComputation_lanes (s : State) : (startComputation s).lanes = .zero := rfl
@[simp] theorem startComputation_buf (s : State) : (startComputation s).buf = s.buf := rfl
@[simp] theorem startComputation_off (s : State) : (startComputation s).off = 0 := rfl
@[simp] theorem startComputation_phase (s : State) : (startComputation s).phase = .absorb := rfl
@[simp] theorem startComputation_ecode (s : State) : (startComputation s).ecode = .none := rfl
@[simp] theorem startComputation_seq (s : State) : (startComputation s).seq = s.seq := rfl
@[simp] theorem startComputation_activity (s : State) : (startComputation s).activity = s.activity := rfl
@[simp] theorem startComputation_hasTap (s : State) : (startComputation s).hasTap = s.hasTap := rfl
@[simp] theorem startComputation_input (s : State) : (startComputation s).input = s.input := rfl
@[simp] theorem startComputation_rsp (s : State) : (startComputation s).rsp = s.rsp := rfl
@[simp] theorem startComputation_tap (s : State) : (startComputation s).tap = s.tap := rfl

/-! ## microEffect -/

@[simp] theorem microEffect_lanes (q : Sequencer) (l : Lanes) (s : State) : (microEffect q l s).lanes = l := by
  simp [microEffect]
@[simp] theorem microEffect_buf (q : Sequencer) (l : Lanes) (s : State) : (microEffect q l s).buf = s.buf := by
  simp [microEffect]
@[simp] theorem microEffect_off (q : Sequencer) (l : Lanes) (s : State) : (microEffect q l s).off = s.off := by
  simp [microEffect]
@[simp] theorem microEffect_phase (q : Sequencer) (l : Lanes) (s : State) : (microEffect q l s).phase = s.phase := by
  simp [microEffect]
@[simp] theorem microEffect_ecode (q : Sequencer) (l : Lanes) (s : State) : (microEffect q l s).ecode = s.ecode := by
  simp [microEffect]
@[simp] theorem microEffect_seq (q : Sequencer) (l : Lanes) (s : State) : (microEffect q l s).seq = q.next := by
  simp [microEffect]
@[simp] theorem microEffect_activity (q : Sequencer) (l : Lanes) (s : State) : (microEffect q l s).activity = s.activity := by
  simp [microEffect]
@[simp] theorem microEffect_hasTap (q : Sequencer) (l : Lanes) (s : State) : (microEffect q l s).hasTap = s.hasTap := by
  simp [microEffect]
@[simp] theorem microEffect_input (q : Sequencer) (l : Lanes) (s : State) : (microEffect q l s).input = s.input := by
  simp [microEffect]
@[simp] theorem microEffect_rsp (q : Sequencer) (l : Lanes) (s : State) : (microEffect q l s).rsp = s.rsp := by
  simp [microEffect]
@[simp] theorem microEffect_tap (q : Sequencer) (l : Lanes) (s : State) : (microEffect q l s).tap = if s.hasTap then s.tap ++ [⟨q.stp.tapKind, q.rnd, l⟩] else s.tap := by
  simp [microEffect]

/-! ## bufPut -/

@[simp] theorem bufPut_lanes (b : Byte) (s : State) : (bufPut b s).lanes = s.lanes := rfl
@[simp] theorem bufPut_buf (b : Byte) (s : State) : (bufPut b s).buf = s.buf.setIfInBounds s.off.toNat b := rfl
@[simp] theorem bufPut_off (b : Byte) (s : State) : (bufPut b s).off = s.off + 1 := rfl
@[simp] theorem bufPut_phase (b : Byte) (s : State) : (bufPut b s).phase = s.phase := rfl
@[simp] theorem bufPut_ecode (b : Byte) (s : State) : (bufPut b s).ecode = s.ecode := rfl
@[simp] theorem bufPut_seq (b : Byte) (s : State) : (bufPut b s).seq = s.seq := rfl
@[simp] theorem bufPut_activity (b : Byte) (s : State) : (bufPut b s).activity = s.activity := rfl
@[simp] theorem bufPut_hasTap (b : Byte) (s : State) : (bufPut b s).hasTap = s.hasTap := rfl
@[simp] theorem bufPut_input (b : Byte) (s : State) : (bufPut b s).input = s.input := rfl
@[simp] theorem bufPut_rsp (b : Byte) (s : State) : (bufPut b s).rsp = s.rsp := rfl
@[simp] theorem bufPut_tap (b : Byte) (s : State) : (bufPut b s).tap = s.tap := rfl

/-! ## beginBlock -/

@[simp] theorem beginBlock_lanes (c : Caller) (blk : Block) (s : State) : (beginBlock c blk s).lanes = xorBlk blk s.lanes := by
  simp [beginBlock]
@[simp] theorem beginBlock_buf (c : Caller) (blk : Block) (s : State) : (beginBlock c blk s).buf = s.buf := by
  simp [beginBlock]
@[simp] theorem beginBlock_off (c : Caller) (blk : Block) (s : State) : (beginBlock c blk s).off = s.off := by
  simp [beginBlock]
@[simp] theorem beginBlock_phase (c : Caller) (blk : Block) (s : State) : (beginBlock c blk s).phase = s.phase := by
  simp [beginBlock]
@[simp] theorem beginBlock_ecode (c : Caller) (blk : Block) (s : State) : (beginBlock c blk s).ecode = s.ecode := by
  simp [beginBlock]
@[simp] theorem beginBlock_seq (c : Caller) (blk : Block) (s : State) : (beginBlock c blk s).seq = .start := by
  simp [beginBlock]
@[simp] theorem beginBlock_activity (c : Caller) (blk : Block) (s : State) : (beginBlock c blk s).activity = .permuting c := by
  simp [beginBlock]
@[simp] theorem beginBlock_hasTap (c : Caller) (blk : Block) (s : State) : (beginBlock c blk s).hasTap = s.hasTap := by
  simp [beginBlock]
@[simp] theorem beginBlock_input (c : Caller) (blk : Block) (s : State) : (beginBlock c blk s).input = s.input := by
  simp [beginBlock]
@[simp] theorem beginBlock_rsp (c : Caller) (blk : Block) (s : State) : (beginBlock c blk s).rsp = s.rsp := by
  simp [beginBlock]
@[simp] theorem beginBlock_tap (c : Caller) (blk : Block) (s : State) : (beginBlock c blk s).tap = if s.hasTap then s.tap ++ [⟨.postXor, 0, xorBlk blk s.lanes⟩] else s.tap := by
  simp [beginBlock]

/-! ## finishCommand -/

@[simp] theorem finishCommand_lanes (c : Caller) (s : State) : (finishCommand c s).lanes = s.lanes := by
  cases c <;> simp [finishCommand]
@[simp] theorem finishCommand_buf (c : Caller) (s : State) : (finishCommand c s).buf = s.buf := by
  cases c <;> simp [finishCommand]
@[simp] theorem finishCommand_off (c : Caller) (s : State) : (finishCommand c s).off = 0 := by
  cases c <;> simp [finishCommand]
@[simp] theorem finishCommand_phase (c : Caller) (s : State) : (finishCommand c s).phase = if c = .final then .done else s.phase := by
  cases c <;> simp [finishCommand]
@[simp] theorem finishCommand_ecode (c : Caller) (s : State) : (finishCommand c s).ecode = s.ecode := by
  cases c <;> simp [finishCommand]
@[simp] theorem finishCommand_seq (c : Caller) (s : State) : (finishCommand c s).seq = s.seq := by
  cases c <;> simp [finishCommand]
@[simp] theorem finishCommand_activity (c : Caller) (s : State) : (finishCommand c s).activity = .rest := by
  cases c <;> simp [finishCommand]
@[simp] theorem finishCommand_hasTap (c : Caller) (s : State) : (finishCommand c s).hasTap = s.hasTap := by
  cases c <;> simp [finishCommand]
@[simp] theorem finishCommand_input (c : Caller) (s : State) : (finishCommand c s).input = s.input := by
  cases c <;> simp [finishCommand]
@[simp] theorem finishCommand_rsp (c : Caller) (s : State) : (finishCommand c s).rsp = some ⟨false, 0x00⟩ := by
  cases c <;> simp [finishCommand]
@[simp] theorem finishCommand_tap (c : Caller) (s : State) : (finishCommand c s).tap = if c = .final ∧ s.hasTap = true then s.tap ++ [⟨.finalState, 0, s.lanes⟩] else s.tap := by
  cases c <;> simp [finishCommand]

/-! ## resetBlock -/

@[simp] theorem resetBlock_lanes (rest : List HostEvent) (s : State) : (resetBlock rest s).lanes = (State.resetOf s.hasTap).lanes := rfl
@[simp] theorem resetBlock_buf (rest : List HostEvent) (s : State) : (resetBlock rest s).buf = (State.resetOf s.hasTap).buf := rfl
@[simp] theorem resetBlock_off (rest : List HostEvent) (s : State) : (resetBlock rest s).off = (State.resetOf s.hasTap).off := rfl
@[simp] theorem resetBlock_phase (rest : List HostEvent) (s : State) : (resetBlock rest s).phase = (State.resetOf s.hasTap).phase := rfl
@[simp] theorem resetBlock_ecode (rest : List HostEvent) (s : State) : (resetBlock rest s).ecode = (State.resetOf s.hasTap).ecode := rfl
@[simp] theorem resetBlock_seq (rest : List HostEvent) (s : State) : (resetBlock rest s).seq = (State.resetOf s.hasTap).seq := rfl
@[simp] theorem resetBlock_activity (rest : List HostEvent) (s : State) : (resetBlock rest s).activity = (State.resetOf s.hasTap).activity := rfl
@[simp] theorem resetBlock_hasTap (rest : List HostEvent) (s : State) : (resetBlock rest s).hasTap = s.hasTap := rfl
@[simp] theorem resetBlock_input (rest : List HostEvent) (s : State) : (resetBlock rest s).input = rest := rfl
@[simp] theorem resetBlock_rsp (rest : List HostEvent) (s : State) : (resetBlock rest s).rsp = (State.resetOf s.hasTap).rsp := rfl
@[simp] theorem resetBlock_tap (rest : List HostEvent) (s : State) : (resetBlock rest s).tap = (State.resetOf s.hasTap).tap := rfl

end Sys2Proof.Machine
end

