-- ==== Sys2Proof/Laws/Permutation.lean ====
section
/-! SUPPORT. PERMUTE on the state, said once: 96 micro-operations of the sequencer are `permuteLanes` on the lanes, the
96 events of `permuteEvents` on the tap, and nothing else (R75, R76, R78 to R80). -/

namespace Sys2Proof.Machine

/-- A state with new lanes and sequencer, and with the given trace events emitted. -/
def engineResult (lanes : Lanes) (seq : Sequencer) (events : List TapEvent) (s : State) : State :=
  { s with lanes := lanes, seq := seq, tap := if s.hasTap then s.tap ++ events else s.tap }

/-- Every micro-operation is one engine result: new lanes, the next SEQ, one event. -/
theorem microEffect_eq (q : Sequencer) (l : Lanes) (s : State) :
    microEffect q l s = engineResult l q.next [⟨q.stp.tapKind, q.rnd, l⟩] s := by
  unfold microEffect emitTap engineResult; split <;> rfl

theorem engineResult_trans (l l' : Lanes) (q q' : Sequencer) (es es' : List TapEvent) (s : State) :
    engineResult l' q' es' (engineResult l q es s) = engineResult l' q' (es ++ es') s := by
  unfold engineResult; split <;> simp

theorem microRun_add (m n : Nat) (s : State) : microRun (m + n) s = microRun n (microRun m s) := by
  induction m generalizing s with
  | zero => rw [Nat.zero_add]; rfl
  | succ m ih => rw [Nat.succ_add]; exact ih _

/-- The lanes after the micro-operation at `q`. -/
def microLanes (q : Sequencer) (l : Lanes) : Lanes :=
  match q.stp with
  | .theta => theta l
  | .rhopi => rhopi l
  | .chi => chi l
  | .iota => iota q.rnd l

/-- The micro-operation at `q` is the engine result of its lanes. -/
theorem microOp_eq (q : Sequencer) (s : State) :
    microOp q s = engineResult (microLanes q s.lanes) q.next [⟨q.stp.tapKind, q.rnd, microLanes q s.lanes⟩] s := by
  obtain ⟨r, p⟩ := q
  cases p <;> simp [microOp, thetaOp, rhopiOp, chiOp, iotaOp, microLanes, microEffect_eq]

/-- The four micro-operations of a round. -/
theorem microRun_round (r : Fin 24) (s : State) (h : s.seq = ⟨r, .theta⟩) :
    microRun 4 s = engineResult (roundLanes r s.lanes) (Sequencer.next ⟨r, .iota⟩) (roundEvents r s.lanes) s := by
  simp only [microRun, h, microOp_eq, engineResult_trans, List.cons_append, List.nil_append]
  rfl

/-- From the start of round `r` to the end of the PERMUTE. -/
theorem microRun_rounds (n : Nat) (r : Fin 24) (s : State) (hn : r.val + n = 24) (h : s.seq = ⟨r, .theta⟩) :
    microRun (4 * n) s =
      engineResult (rounds ((List.finRange 24).drop r.val) s.lanes) .start
        (roundsEvents ((List.finRange 24).drop r.val) s.lanes) s := by
  induction n generalizing r s with
  | zero => omega
  | succ n ih =>
    have hd : (List.finRange 24).drop r.val = r :: (List.finRange 24).drop (r.val + 1) := by
      rw [List.drop_eq_getElem_cons (by simp)]; simp
    rw [Nat.mul_succ, Nat.add_comm, microRun_add, microRun_round r s h, hd]
    by_cases hr : r.val < 23
    · have hq : Sequencer.next ⟨r, .iota⟩ = ⟨⟨r.val + 1, by omega⟩, .theta⟩ := by simp [Sequencer.next, hr]
      rw [ih ⟨r.val + 1, by omega⟩ _ (by simp only; omega) hq, engineResult_trans]
      rfl
    · have hn0 : n = 0 := by omega
      have hq : Sequencer.next ⟨r, .iota⟩ = .start := by simp [Sequencer.next, hr]
      have h24 : (List.finRange 24).drop (r.val + 1) = [] := by
        apply List.drop_eq_nil_of_le; simp only [List.length_finRange]; omega
      subst hn0
      rw [hq, h24]
      simp [microRun, rounds, roundsEvents]

/-- PERMUTE on the state (R75, R79, R80): the lanes are permuted, SEQ is (0, 0), the 96 events are emitted, and nothing
else changes. -/
theorem permute_eq (s : State) :
    permute s = engineResult (permuteLanes s.lanes) .start (permuteEvents s.lanes) s :=
  microRun_rounds 24 0 { s with seq := .start } rfl rfl

/-- The events of rounds: four for each. -/
theorem roundsEvents_length (rs : List (Fin 24)) (l : Lanes) : (roundsEvents rs l).length = 4 * rs.length := by
  induction rs generalizing l with
  | nil => rfl
  | cons r rs ih => simp only [roundsEvents, List.length_append, ih, roundEvents, List.length_cons, List.length_nil]; omega

theorem permuteEvents_length (l : Lanes) : (permuteEvents l).length = 96 := by
  simp [permuteEvents, roundsEvents_length]

/-! ## The fields of an engine result -/

@[simp] theorem engineResult_lanes (l : Lanes) (q : Sequencer) (es : List TapEvent) (s : State) : (engineResult l q es s).lanes = l := rfl
@[simp] theorem engineResult_buf (l : Lanes) (q : Sequencer) (es : List TapEvent) (s : State) : (engineResult l q es s).buf = s.buf := rfl
@[simp] theorem engineResult_off (l : Lanes) (q : Sequencer) (es : List TapEvent) (s : State) : (engineResult l q es s).off = s.off := rfl
@[simp] theorem engineResult_phase (l : Lanes) (q : Sequencer) (es : List TapEvent) (s : State) : (engineResult l q es s).phase = s.phase := rfl
@[simp] theorem engineResult_ecode (l : Lanes) (q : Sequencer) (es : List TapEvent) (s : State) : (engineResult l q es s).ecode = s.ecode := rfl
@[simp] theorem engineResult_seq (l : Lanes) (q : Sequencer) (es : List TapEvent) (s : State) : (engineResult l q es s).seq = q := rfl
@[simp] theorem engineResult_activity (l : Lanes) (q : Sequencer) (es : List TapEvent) (s : State) : (engineResult l q es s).activity = s.activity := rfl
@[simp] theorem engineResult_hasTap (l : Lanes) (q : Sequencer) (es : List TapEvent) (s : State) : (engineResult l q es s).hasTap = s.hasTap := rfl
@[simp] theorem engineResult_input (l : Lanes) (q : Sequencer) (es : List TapEvent) (s : State) : (engineResult l q es s).input = s.input := rfl
@[simp] theorem engineResult_rsp (l : Lanes) (q : Sequencer) (es : List TapEvent) (s : State) : (engineResult l q es s).rsp = s.rsp := rfl
@[simp] theorem engineResult_tap (l : Lanes) (q : Sequencer) (es : List TapEvent) (s : State) :
    (engineResult l q es s).tap = if s.hasTap then s.tap ++ es else s.tap := rfl

end Sys2Proof.Machine
end

