-- ==== Sys2Proof/Laws/Ops.lean ====
section
/-! SUPPORT. What each shared operation can do, said once: the checks of a command, the operand forms, ABSORBBLK. -/

namespace Sys2Proof.Machine

/-! ## Operands -/

@[simp] theorem noOperand_zero : noOperand 0 = .ok () := rfl

theorem noOperand_ne_zero {arg : Byte} (h : arg ≠ 0) : noOperand arg = .error .rsvarg := if_neg h

@[simp] theorem byteOperand_ok (b : Byte) : byteOperand b = .ok b := rfl

theorem digestIndex_lt {arg : Byte} (h : arg.toNat < 32) : digestIndex arg = .ok ⟨arg.toNat, h⟩ := dif_pos h

theorem digestIndex_ge {arg : Byte} (h : 32 ≤ arg.toNat) : digestIndex arg = .error .badidx := dif_neg (by omega)

theorem statusNumber_lt {arg : Byte} (h : arg.toNat < 2) : statusNumber arg = .ok ⟨arg.toNat, h⟩ := dif_pos h

theorem statusNumber_ge {arg : Byte} (h : 2 ≤ arg.toNat) : statusNumber arg = .error .badidx := dif_neg (by omega)

/-! ## The checks of a command (R120) -/

/-- A command answers a next state, whatever happens. -/
theorem carryOut_next {α : Type} (operand : Except Cause α) (allowed : Phase → Bool) (body : α → State → State)
    (s : State) : ∃ t, carryOut operand allowed body s = .next t := by
  unfold carryOut
  split
  · exact ⟨_, rfl⟩
  · split <;> exact ⟨_, rfl⟩

/-- A command takes a word-level fault, takes BADPHASE, or runs its body. -/
theorem carryOut_cases {α : Type} {operand : Except Cause α} {allowed : Phase → Bool} {body : α → State → State}
    {s t : State} (h : carryOut operand allowed body s = .next t) :
    (∃ c, operand = .error c ∧ t = raiseFault c s) ∨
    (∃ a, operand = .ok a ∧ allowed s.phase = false ∧ t = raiseFault .badphase s) ∨
    (∃ a, operand = .ok a ∧ allowed s.phase = true ∧ t = body a s) := by
  rcases operand with c | a
  · exact .inl ⟨c, rfl, by simpa [carryOut] using h.symm⟩
  · by_cases hp : allowed s.phase = true
    · exact .inr (.inr ⟨a, rfl, hp, by simpa [carryOut, hp] using h.symm⟩)
    · exact .inr (.inl ⟨a, rfl, by simpa using hp, by simpa [carryOut, hp] using h.symm⟩)

/-! ## ABSORBBLK (R102) -/

/-- ABSORBBLK on the state: the block is absorbed into the lanes, 97 events are emitted, the command is in progress. -/
theorem absorbBlk_eq (c : Caller) (blk : Block) (s : State) :
    absorbBlk c blk s =
      { engineResult (absorbLanes s.lanes blk) .start (blockEvents blk s.lanes) s with activity := .permuting c } := by
  unfold absorbBlk
  rw [permute_eq]
  unfold beginBlock emitTap engineResult absorbLanes blockEvents
  split <;> simp_all

theorem blockEvents_length (blk : Block) (l : Lanes) : (blockEvents blk l).length = 97 := by
  simp [blockEvents, permuteEvents_length]

/-! ## The bodies of ABSORB and FINAL in closed form (R122, R123) -/

theorem bufPut_off_eq_iff (b : Byte) (s : State) : (bufPut b s).off = 136 ↔ s.off = 135 := by
  rw [bufPut_off]
  constructor
  · intro h; apply BitVec.eq_of_toNat_eq
    have := congrArg BitVec.toNat h
    rw [BitVec.toNat_add] at this
    have := s.off.isLt
    simp_all; omega
  · intro h; rw [h]; rfl

/-- ABSORB of a byte that does not fill the buffer. -/
theorem absorbBody_of_ne {b : Byte} {s : State} (h : s.off ≠ 135) :
    absorbBody b s = respond false 0x00 (bufPut b s) :=
  if_neg fun h' => h ((bufPut_off_eq_iff b s).mp h')

/-- ABSORB of the byte that fills the buffer. -/
theorem absorbBody_of_eq {b : Byte} {s : State} (h : s.off = 135) :
    absorbBody b s = finishCommand .absorb (absorbBlk .absorb (bufPut b s).buf (bufPut b s)) :=
  if_pos ((bufPut_off_eq_iff b s).mpr h)

/-! ## The padded block -/

@[simp] theorem padBlk_get (buf : Block) (off : BitVec 8) (k : Nat) (hk : k < 136) :
    (padBlk buf off)[k] = if k = 135 then padByte buf off ⟨k, hk⟩ ||| 0x80 else padByte buf off ⟨k, hk⟩ := by
  simp [padBlk]

/-! ## Rotation -/

/-- `rotl` is the core library's rotation. -/
theorem rotl_eq_rotateLeft (v : Lane) (n : Fin 64) : rotl v n = v.rotateLeft n.val := by
  unfold rotl
  split
  · next h => subst h; ext i hi; simp [BitVec.getElem_rotateLeft]
  · rw [BitVec.rotateLeft_def, Nat.mod_eq_of_lt n.isLt]

end Sys2Proof.Machine
end

