-- ==== Sys2Proof/Laws/PerInstr.lean ====
section
/-! SUPPORT. Laws of the instruction as syntax, one lemma per constructor. -/

namespace Sys2Proof.Laws.SelectsRow

/-- The encoded word selects its own row of spec/opcode_table.json: `(w & mask) = match` (R53, R56). -/
def Statement (i : Instr) : Prop :=
  (encode i).toNat &&& (opcodeRow i).maskBits = (opcodeRow i).matchBits

/-- A command word masked to its opcode byte. -/
theorem cmdWord_and_mask (op arg : Byte) : (cmdWord op arg).toNat &&& 0xFF00 = op.toNat * 256 := by
  have h : cmdWord op arg &&& 0xFF00#16 = op.setWidth 16 <<< 8 := by
    apply BitVec.eq_of_getLsbD_eq
    intro k hk
    simp only [cmdWord, BitVec.getLsbD_and, BitVec.getLsbD_append, BitVec.getLsbD_shiftLeft,
      BitVec.getLsbD_setWidth]
    interval_cases k <;> simp
  have := congrArg BitVec.toNat h
  rw [BitVec.toNat_and] at this
  simp only [BitVec.toNat_ofNat, Nat.reducePow, Nat.reduceMod] at this
  rw [this]
  simp only [BitVec.toNat_shiftLeft, BitVec.toNat_setWidth, Nat.shiftLeft_eq]
  omega

/-- A micro-operation word masked to its STP field. -/
theorem microWord_and_mask (r : Fin 24) (stp : BitVec 2) : (microWord r stp).toNat &&& 0x03 = stp.toNat := by
  have h : (3 : Nat) = 2 ^ 2 - 1 := rfl
  rw [h, Nat.and_two_pow_sub_one_eq_mod, microWord, BitVec.toNat_append, Nat.shiftLeft_eq]
  have := stp.isLt
  rw [Nat.or_comm, ← Nat.shiftLeft_eq, Nat.or_comm, ← Nat.shiftLeft_add_eq_or_of_lt this, Nat.shiftLeft_eq]
  omega

theorem init (arg : Byte) : Statement (.init arg) := cmdWord_and_mask 0x01 arg
theorem absorb (b : Byte) : Statement (.absorb b) := cmdWord_and_mask 0x02 b
theorem final (arg : Byte) : Statement (.final arg) := cmdWord_and_mask 0x03 arg
theorem rdig (idx : Byte) : Statement (.rdig idx) := cmdWord_and_mask 0x04 idx
theorem rdsr (idx : Byte) : Statement (.rdsr idx) := cmdWord_and_mask 0x05 idx
theorem theta (r : Fin 24) : Statement (.theta r) := microWord_and_mask r 0
theorem rhopi (r : Fin 24) : Statement (.rhopi r) := microWord_and_mask r 1
theorem chi (r : Fin 24) : Statement (.chi r) := microWord_and_mask r 2
theorem iota (r : Fin 24) : Statement (.iota r) := microWord_and_mask r 3

end Sys2Proof.Laws.SelectsRow
end

