-- ==== Sys2Proof/Laws/Step.lean ====
section
/-! SUPPORT. What a step can do, said once (R120, R154): every invariant of the machine is derived from `step_cases`. -/

namespace Sys2Proof.Machine

/-- The meaning of the micro-operation at `q` is what the sequencer runs. -/
theorem exec_seqInstr (q : Sequencer) (s : State) : exec q.instr s = .next (microOp q s) := by
  obtain ⟨r, p⟩ := q
  cases p <;> rfl

/-- Every instruction answers a next state. -/
theorem exec_next (i : Instr) (s : State) : ∃ t, exec i s = .next t := by
  cases i with
  | init a => exact carryOut_next (noOperand a) anyPhase initBody s
  | absorb b => exact carryOut_next (byteOperand b) inAbsorb absorbBody s
  | final a => exact carryOut_next (noOperand a) inAbsorb finalBody s
  | rdig x => exact carryOut_next (digestIndex x) inDone rdigBody s
  | rdsr x => exact carryOut_next (statusNumber x) anyPhase rdsrBody s
  | theta r => exact ⟨_, rfl⟩
  | rhopi r => exact ⟨_, rfl⟩
  | chi r => exact ⟨_, rfl⟩
  | iota r => exact ⟨_, rfl⟩

/-- A command word decodes to one of the five commands, with the word's operand. -/
theorem decodeCommand_cases {w : CmdWord} {i : Instr} (h : decodeCommand w = .ok i) :
    i = .init (cmdArg w) ∨ i = .absorb (cmdArg w) ∨ i = .final (cmdArg w) ∨ i = .rdig (cmdArg w) ∨
      i = .rdsr (cmdArg w) := by
  unfold decodeCommand at h
  repeat' split at h
  all_goals simp_all

/-! ## The meanings as checks and bodies -/

theorem exec_init (arg : Byte) (s : State) : exec (.init arg) s = carryOut (noOperand arg) anyPhase initBody s := rfl
theorem exec_absorb (b : Byte) (s : State) : exec (.absorb b) s = carryOut (byteOperand b) inAbsorb absorbBody s := rfl
theorem exec_final (arg : Byte) (s : State) : exec (.final arg) s = carryOut (noOperand arg) inAbsorb finalBody s := rfl
theorem exec_rdig (idx : Byte) (s : State) : exec (.rdig idx) s = carryOut (digestIndex idx) inDone rdigBody s := rfl
theorem exec_rdsr (idx : Byte) (s : State) : exec (.rdsr idx) s = carryOut (statusNumber idx) anyPhase rdsrBody s := rfl

/-- A command that a word decodes to takes a fault, or is legal in its phase and runs its own body. -/
theorem exec_command_cases {w : CmdWord} {i : Instr} {s t : State} (hd : decodeCommand w = .ok i)
    (he : exec i s = .next t) :
    (∃ c, t = raiseFault c s) ∨
    (i = .init 0 ∧ t = initBody () s) ∨
    (∃ b, i = .absorb b ∧ s.phase = .absorb ∧ t = absorbBody b s) ∨
    (i = .final 0 ∧ s.phase = .absorb ∧ t = finalBody () s) ∨
    (∃ idx k, i = .rdig idx ∧ digestIndex idx = .ok k ∧ s.phase = .done ∧ t = rdigBody k s) ∨
    (∃ idx k, i = .rdsr idx ∧ statusNumber idx = .ok k ∧ t = rdsrBody k s) := by
  have arg0 : ∀ {a : Byte} {u : Unit}, noOperand a = .ok u → a = 0 := by
    intro a u h; by_contra hn; rw [noOperand_ne_zero hn] at h; cases h
  rcases decodeCommand_cases hd with rfl | rfl | rfl | rfl | rfl
  · rw [exec_init] at he
    obtain ⟨c, -, rfl⟩ | ⟨a, -, -, rfl⟩ | ⟨a, ha, -, rfl⟩ := carryOut_cases he
    · exact .inl ⟨_, rfl⟩
    · exact .inl ⟨_, rfl⟩
    · exact .inr (.inl ⟨by rw [arg0 ha], rfl⟩)
  · rw [exec_absorb] at he
    obtain ⟨c, -, rfl⟩ | ⟨a, -, -, rfl⟩ | ⟨a, ha, hp, rfl⟩ := carryOut_cases he
    · exact .inl ⟨_, rfl⟩
    · exact .inl ⟨_, rfl⟩
    · cases ha; exact .inr (.inr (.inl ⟨_, rfl, by simpa [inAbsorb] using hp, rfl⟩))
  · rw [exec_final] at he
    obtain ⟨c, -, rfl⟩ | ⟨a, -, -, rfl⟩ | ⟨a, ha, hp, rfl⟩ := carryOut_cases he
    · exact .inl ⟨_, rfl⟩
    · exact .inl ⟨_, rfl⟩
    · exact .inr (.inr (.inr (.inl ⟨by rw [arg0 ha], by simpa [inAbsorb] using hp, rfl⟩)))
  · rw [exec_rdig] at he
    obtain ⟨c, -, rfl⟩ | ⟨a, -, -, rfl⟩ | ⟨a, ha, hp, rfl⟩ := carryOut_cases he
    · exact .inl ⟨_, rfl⟩
    · exact .inl ⟨_, rfl⟩
    · exact .inr (.inr (.inr (.inr (.inl ⟨_, a, rfl, ha, by simpa [inDone] using hp, rfl⟩))))
  · rw [exec_rdsr] at he
    obtain ⟨c, -, rfl⟩ | ⟨a, -, -, rfl⟩ | ⟨a, ha, -, rfl⟩ := carryOut_cases he
    · exact .inl ⟨_, rfl⟩
    · exact .inl ⟨_, rfl⟩
    · exact .inr (.inr (.inr (.inr (.inr ⟨_, a, rfl, ha, rfl⟩))))

/-! ## Steps -/

/-- What the next step is, by the host's events and the command in progress. -/
theorem fetch_cases (s : State) :
    (∃ rest, s.input = .reset :: rest ∧ fetch s = .reset rest) ∨
    (∃ c, s.activity = .permuting c ∧ s.input.head? ≠ some .reset ∧
      fetch s = .micro c s.seq.instr (clearOutputs s)) ∨
    (∃ w rest, s.activity = .rest ∧ s.input = .command w :: rest ∧ fetch s = accept w rest s) ∨
    (s.activity = .rest ∧ s.input = [] ∧ fetch s = .idle) := by
  rcases hi : s.input with _ | ⟨_ | _, rest⟩ <;> rcases ha : s.activity with _ | c <;> simp [fetch, hi, ha]

/-- A step is a reset, a micro-operation of the PERMUTE in progress, an accepted command word that decodes or does not,
or nothing. -/
theorem step_cases {s t : State} (h : step s = .next t) :
    (∃ rest, s.input = .reset :: rest ∧ t = resetBlock rest s) ∨
    (∃ c, s.activity = .permuting c ∧ s.input.head? ≠ some .reset ∧
      t = settle c (microOp s.seq (clearOutputs s))) ∨
    (∃ w rest i, s.activity = .rest ∧ s.input = .command w :: rest ∧ decodeCommand w = .ok i ∧
      exec i (clearOutputs { s with input := rest }) = .next t) ∨
    (∃ w rest e, s.activity = .rest ∧ s.input = .command w :: rest ∧ decodeCommand w = .error e ∧
      t = raiseFault .illop (clearOutputs { s with input := rest })) ∨
    (s.activity = .rest ∧ s.input = [] ∧ t = clearOutputs s) := by
  obtain ⟨rest, hi, hf⟩ | ⟨c, ha, hi, hf⟩ | ⟨w, rest, ha, hi, hf⟩ | ⟨ha, hi, hf⟩ := fetch_cases s
  · exact .inl ⟨rest, hi, by simpa [step, hf] using h.symm⟩
  · refine .inr (.inl ⟨c, ha, hi, ?_⟩)
    simpa [step, hf, exec_seqInstr, mapNext] using h.symm
  · rcases hd : decodeCommand w with e | i
    · refine .inr (.inr (.inr (.inl ⟨w, rest, e, ha, hi, hd, ?_⟩)))
      simpa [step, hf, accept, hd] using h.symm
    · refine .inr (.inr (.inl ⟨w, rest, i, ha, hi, hd, ?_⟩))
      simpa [step, hf, accept, hd] using h
  · exact .inr (.inr (.inr (.inr ⟨ha, hi, by simpa [step, hf] using h.symm⟩)))

/-- After a micro-operation that is not the last of its PERMUTE, the command goes on. -/
theorem settle_of_ne {c : Caller} {s : State} (h : s.seq ≠ .start) : settle c s = s := if_neg h

/-- After the last micro-operation the command ends. -/
theorem settle_of_eq {c : Caller} {s : State} (h : s.seq = .start) : settle c s = finishCommand c s := if_pos h

/-- A micro-operation step inside a PERMUTE: every step of the engine, in one equation. -/
theorem step_permuting {s : State} {c : Caller} (ha : s.activity = .permuting c) (hi : s.input.head? ≠ some .reset) :
    step s = .next (settle c (microOp s.seq (clearOutputs s))) := by
  obtain ⟨rest, hi', -⟩ | ⟨c', ha', -, hf⟩ | ⟨w, rest, ha', -, -⟩ | ⟨ha', -, -⟩ := fetch_cases s
  · rw [hi'] at hi; exact absurd rfl hi
  · rw [ha] at ha'; cases ha'
    simp only [step, hf, exec_seqInstr, mapNext]
  · rw [ha] at ha'; cases ha'
  · rw [ha] at ha'; cases ha'

end Sys2Proof.Machine
end

