-- ==== Sys2Proof/Laws/Run.lean ====
section
/-! SUPPORT. Runs: how they compose, and that they are the host's runs. -/

namespace Sys2Proof.Machine

theorem run_eq_core (n : Nat) (s : State) : run n s = Host.Core.run Sys2Proof.core n s := by
  induction n generalizing s with
  | zero => rfl
  | succ n ih =>
    have hc : Sys2Proof.core.step s = step s := rfl
    simp only [run, Host.Core.run, hc]
    cases step s with
    | next t => exact ih t
    | fault r => rfl
    | refused r => rfl

/-- The first step of a run. -/
theorem run_succ {n : Nat} {s t : State} (h : step s = .next t) : run (n + 1) s = run n t := by
  simp [run, h]

/-- A run of `m + n` steps is a run of `n` steps after a run of `m`. -/
theorem run_add {m n : Nat} {s t : State} (h : run m s = .next t) : run (m + n) s = run n t := by
  induction m generalizing s with
  | zero =>
    rw [Nat.zero_add]
    simp only [run, Host.Outcome.next.injEq] at h
    rw [h]
  | succ m ih =>
    rw [Nat.succ_add]
    simp only [run] at h ⊢
    split at h
    · exact ih h
    · simp at h
    · simp at h

/-- What is shown by the first step and by the rest. -/
theorem shownBy_succ {n : Nat} {s t : State} (h : step s = .next t) :
    shownBy (n + 1) s = t.shown :: shownBy n t := by
  simp [shownBy, h]

end Sys2Proof.Machine
end

