-- ==== Sys2Proof/Tests/Slice0.lean ====
section
/-! SUPPORT. Tests. Expected values come from spec/95_test_vectors.md (V10 to V29, P1 to P5) and from the encodings of
spec/30_encoding.md; the witnesses show that the hypotheses of the statements can be met, at the edges of their
ranges. -/

namespace Sys2Proof.Tests

set_option Elab.async false

open Sys2Proof Sys2Proof.Machine

/-! ## Helpers -/

/-- The state after an answer. -/
def after : Result → Option State
  | .next s => some s
  | .fault _ => none
  | .refused _ => none

/-- The lanes of a printed grid, lane 0 first. -/
def grid (l : List Lane) : Lanes := .ofFn fun i => l.getD i.val 0

/-- The lanes A[i] = f i. -/
def lanesOf (f : Nat → Lane) : Lanes := .ofFn fun i => f i.val

/-- A state in the given phase with the given fill count. -/
def at_ (phase : Phase) (off : BitVec 8) : State :=
  { State.reset with phase := phase, off := off, ecode := if phase = .fault then .badphase else .none }

/-- A state whose lanes are given. -/
def withLanes (l : Lanes) : State := { State.reset with lanes := l }

/-- A state in which a PERMUTE is in progress at `q`. -/
def permutingAt (c : Caller) (q : Sequencer) : State :=
  { at_ .absorb (if c = .absorb then 136 else 0) with activity := .permuting c, seq := q }

/-- A state that is offered one word and then another event. -/
def offering (s : State) (w : CmdWord) (rest : List HostEvent) : State := s.present (.command w :: rest)

/-! ## Parameters (R2) -/

theorem test_parameters :
    Config.RATE + Config.CAPACITY = Config.STATE_BYTES ∧ Config.STATE_BITS = 1600 ∧ Config.RATE_LANES = 17 ∧
      rcTable.length = Config.NROUNDS ∧ rhoRows.flatten.length = Config.NLANES := by decide

/-! ## Well-formedness: an ill-formed term for each check -/

theorem test_init_operand_must_be_zero : (Instr.init 1).wellFormed = false := by decide
theorem test_final_operand_must_be_zero : (Instr.final 0x80).wellFormed = false := by decide
theorem test_rdig_index_must_be_below_32 : (Instr.rdig 32).wellFormed = false := by decide
theorem test_rdsr_number_must_be_below_2 : (Instr.rdsr 2).wellFormed = false := by decide
theorem test_legal_operands_are_well_formed :
    ((Instr.init 0).wellFormed && (Instr.absorb 0xFF).wellFormed && (Instr.final 0).wellFormed &&
      (Instr.rdig 31).wellFormed && (Instr.rdsr 1).wellFormed && (Instr.iota 23).wellFormed) = true := by decide

/-! ## Decoding: words written out bit by bit from R50, R53 and R56 -/

theorem test_decode_init : decodeCommand 0b0000000100000000 = .ok (.init 0) := by decide
theorem test_decode_init_reserved_operand : decodeCommand 0b0000000110000001 = .ok (.init 0x81) := by decide
theorem test_decode_absorb : decodeCommand 0b0000001001100011 = .ok (.absorb 0x63) := by decide
theorem test_decode_final : decodeCommand 0b0000001100000000 = .ok (.final 0) := by decide
theorem test_decode_rdig : decodeCommand 0b0000010000011111 = .ok (.rdig 31) := by decide
theorem test_decode_rdsr : decodeCommand 0b0000010100000001 = .ok (.rdsr 1) := by decide
theorem test_decode_zero_word : decodeCommand 0 = .error (.illegalOpcode 0) := by decide
theorem test_decode_opcode_six : decodeCommand 0b0000011000000000 = .error (.illegalOpcode 6) := by decide
theorem test_decode_theta : decodeMicro 0b0000100 = .ok (.theta 1) := by decide
theorem test_decode_rhopi : decodeMicro 0b0000101 = .ok (.rhopi 1) := by decide
theorem test_decode_chi : decodeMicro 0b1010110 = .ok (.chi 21) := by decide
theorem test_decode_iota : decodeMicro 0b1011111 = .ok (.iota 23) := by decide
theorem test_decode_micro_round_24 : decodeMicro 0b1100000 = .error (.reservedMicroOp 96) := by decide
theorem test_table_word_init : decodeTableWord 16 0x0100 = some (.init 0) := by decide
theorem test_table_word_iota : decodeTableWord 8 0x03 = some (.iota 0) := by decide

/-! ## The engine -/

/-- V12: one bit. -/
theorem test_theta_single_bit :
    (after (exec (.theta 0) (withLanes (lanesOf fun i => if i = 0 then 1 else 0)))).map (·.lanes) =
      some (grid [1, 1, 0, 0, 2, 0, 1, 0, 0, 2, 0, 1, 0, 0, 2, 0, 1, 0, 0, 2, 0, 1, 0, 0, 2]) := by decide +kernel

/-- V13: the rotation by 1 wraps bit 63 of column 2 into bit 0 of column 1. -/
theorem test_theta_top_bit_wraps :
    (after (exec (.theta 0) (withLanes (lanesOf fun i => if i = 17 then 0x8000000000000000 else 0)))).map
        (fun t => (t.lanes.lane 1 0, t.lanes.lane 3 4, t.lanes.lane 2 3, t.lanes.lane 2 0)) =
      some (1, 0x8000000000000000, 0x8000000000000000, 0) := by decide +kernel

/-- V16: which source lane lands where. -/
theorem test_rhopi_sources :
    (after (exec (.rhopi 0) (withLanes (lanesOf fun i => BitVec.ofNat 64 i)))).map (·.lanes) =
      some (grid ([0x0000000000000000, 0x0000600000000000, 0x0000600000000000, 0x0000000002400000, 0x0000000000060000,
        0x0000000030000000, 0x0000000000900000, 0x0000000000000050, 0x0002000000000000, 0xC000000000000002] ++
        [0x0000000000000002, 0x00000000000001C0, 0x000000001A000000, 0x0000000000001300, 0x0000000000500000,
        0x0000000020000000, 0x0000005000000000, 0x0000000000002C00, 0x0000000000088000, 0x1700000000000000] ++
        [0x8000000000000000, 0x0400000000000000, 0x0000070000000000, 0x00001E0000000000, 0x0000000000000054])) := by
  decide +kernel

/-- V17: one row. -/
theorem test_chi_one_row :
    (after (exec (.chi 5) (withLanes (grid [0x01, 0x03, 0x05, 0xF0, 0xFF])))).map (·.lanes) =
      some (grid [0x05, 0xF3, 0x0A, 0xF0, 0xFD]) := by decide +kernel

/-- V18 (e): rows never mix, and columns wrap within their row. -/
theorem test_chi_second_row :
    (after (exec (.chi 0) (withLanes (lanesOf fun i => if i = 11 then 0xFF00 else if i = 12 then 0xFFFF else 0)))).map
        (·.lanes) =
      some (grid [0, 0, 0, 0, 0, 0, 0, 0, 0, 0, 0xFF, 0xFF00, 0xFFFF, 0, 0xFF00]) := by decide +kernel

/-- V19: round 23 into all ones. -/
theorem test_iota_round_23 :
    (after (exec (.iota 23) (withLanes (lanesOf fun _ => 0xFFFFFFFFFFFFFFFF)))).map
        (fun t => (t.lanes.get 0, t.lanes.get 1, t.seq)) =
      some (0x7FFFFFFF7FFF7FF7, 0xFFFFFFFFFFFFFFFF, Sequencer.start) := by decide +kernel

/-- V20: one round of A[i] = i + 1. -/
theorem test_round_zero :
    (roundLanes 0 (lanesOf fun i => BitVec.ofNat 64 (i + 1))).row 4 =
      ⟨0x40000A8000000007, 0x0800000000000000, 0x00000A8000000064, 0x4000020000000003, 0x0800000000000064⟩ ∧
      (roundLanes 0 (lanesOf fun i => BitVec.ofNat 64 (i + 1))).lane 0 0 = 0x0000180000000011 := by decide +kernel

/-! ## The commands -/

/-- INIT leaves FAULT (P4). -/
theorem test_init_leaves_fault :
    (after (exec (.init 0) { at_ .fault 7 with lanes := lanesOf fun _ => 9 })).map
        (fun t => (t.phase, t.ecode, t.off, t.lanes, t.rsp)) =
      some (.absorb, .none, 0, .zero, some ⟨false, 0⟩) := by decide +kernel

/-- V28: INIT with arg = 1 is RSVARG. -/
theorem test_init_reserved_operand :
    (after (exec (.init 1) State.reset)).map (fun t => (t.sr0, t.rsp)) = some (0x23, some ⟨true, 2⟩) := by decide +kernel

/-- P2: the first byte goes to BUF[0]. -/
theorem test_absorb_first_byte :
    (after (exec (.absorb 0x61) (at_ .absorb 0))).map (fun t => (t.buf[0], t.off, t.rsp)) =
      some (0x61, 1, some ⟨false, 0⟩) := by decide +kernel

/-- P3: the 136th byte 0x61 fills the block, which is absorbed at once. -/
theorem test_absorb_fills_block :
    (after (exec (.absorb 0x61) { at_ .absorb 135 with lanes := .zero, buf := Vector.replicate 136 0x61 })).map
        (fun t => (t.lanes.get 0, t.off, t.phase, t.tap.length)) =
      some (0xD498EC4C50D2E1F1, 0, .absorb, 97) := by decide +kernel

/-- V22 and V27, "abc": PADBLK and XORBLK of 61 62 63. -/
theorem test_padded_block_of_abc :
    let blk := padBlk (Vector.ofFn fun k => if k.val = 0 then 0x61 else if k.val = 1 then 0x62 else 0x63) 3
    (xorBlk blk .zero).get 0 = 0x0000000001636261 ∧ (xorBlk blk .zero).get 16 = 0x8000000000000000 ∧
      (xorBlk blk .zero).get 17 = 0 := by decide +kernel

/-- V24, OFF = 135: the one padding byte is 0x81. -/
theorem test_padded_block_one_byte :
    (xorBlk (padBlk (Vector.replicate 136 0x61) 135) .zero).get 16 = 0x8161616161616161 := by decide +kernel

/-- V26: FINAL of the empty message. -/
theorem test_final_empty_message :
    (after (exec (.final 0) { at_ .absorb 0 with lanes := .zero })).map
        (fun t => (t.lanes.row 0, t.lanes.get 24, t.off, t.phase, t.tap.length)) =
      some (⟨0x3C23F7860146D2C5, 0xC003C7DCB27D7E92, 0x3B2782CA53B600E5, 0x70A4855D04D8FA7B, 0x74A97CD82C9ABB3D⟩,
        0xA3FE1AF7779FAFD7, 0, .done, 98) := by decide +kernel

/-- V28: FINAL twice is BADPHASE. -/
theorem test_final_twice :
    (after (exec (.final 0) (at_ .done 0))).map (fun t => (t.sr0, t.rsp)) = some (0x43, some ⟨true, 4⟩) := by
  decide +kernel

/-- V25: SQUEEZE of A[0] and A[3] of the empty message. -/
theorem test_rdig_bytes :
    let s : State := { at_ .done 0 with lanes := lanesOf fun i => if i = 0 then 0x3C23F7860146D2C5 else 0x70A4855D04D8FA7B }
    (after (exec (.rdig 1) s)).map (·.rsp) = some (some ⟨false, 0xD2⟩) ∧
      (after (exec (.rdig 31) s)).map (·.rsp) = some (some ⟨false, 0x70⟩) := by decide +kernel

/-- V28: RDIG 32 in IDLE is BADIDX, not BADPHASE. -/
theorem test_rdig_index_before_phase :
    (after (exec (.rdig 32) State.reset)).map (fun t => (t.sr0, t.rsp)) = some (0x33, some ⟨true, 3⟩) := by decide +kernel

/-- V29: SR0 with cause 4, and OFF kept in FAULT. -/
theorem test_rdsr_in_fault :
    (after (exec (.rdsr 0) (at_ .fault 2))).map (·.rsp) = some (some ⟨false, 0x43⟩) ∧
      (after (exec (.rdsr 1) (at_ .fault 2))).map (·.rsp) = some (some ⟨false, 2⟩) := by decide +kernel

/-- V28: RDSR 255 is BADIDX, and the first cause is kept. -/
theorem test_rdsr_bad_number :
    (after (exec (.rdsr 255) (at_ .fault 0))).map (fun t => (t.ecode, t.rsp)) = some (.badphase, some ⟨true, 3⟩) := by
  decide +kernel

/-! ## Steps -/

/-- V28: the word 0x0600 after reset is ILLOP. -/
theorem test_step_illegal_opcode :
    (after (step (offering State.reset 0x0600 []))).map (fun t => (t.sr0, t.rsp, t.input)) =
      some (0x13, some ⟨true, 1⟩, []) := by decide +kernel

/-- P1: the first command after reset. -/
theorem test_step_runs_fetch_word :
    (after (step (State.reset.withFetchWord 16 0x0100))).map (fun t => (t.sr0, t.sr1, t.rsp)) =
      some (0x01, 0x00, some ⟨false, 0⟩) := by decide +kernel

/-- R73, R76: the micro-operation word of IOTA(1) runs as the next step. -/
theorem test_step_runs_micro_word :
    (after (step (State.reset.withFetchWord 8 0b0000111))).map (fun t => (t.lanes.get 0, t.seq)) =
      some (0x0000000000008082, ⟨2, .theta⟩) := by decide +kernel

/-! ## The assembler (R58, R59) -/

theorem test_assemble_line :
    assembleText [['I', 'N', 'I', 'T', ' ', ';', 'x'], [' ', 'A', 'B', 'S', 'O', 'R', 'B', ' ', '0', 'x', '6', '1'],
      ['U', 'P', 'D', 'A', 'T', 'E', 'S', ' ', '"', 'b', '"'], ['R', 'D', 'I', 'G', ' ', '3', '1']] =
      some [0x0100, 0x0261, 0x0262, 0x041F] := by decide +kernel
theorem test_assemble_refuses_range :
    assembleText [['A', 'B', 'S', 'O', 'R', 'B', ' ', '2', '5', '6']] = none := by decide +kernel

/-! ## Witnesses: the hypotheses of every statement that has any, met at the edges -/

theorem witness_DecodedWordReencodes :
    decode (.command 0x05FF) = .ok (.rdsr 0xFF) ∧ decode (.micro 95) = .ok (.iota 23) := by decide

theorem witness_WordsThatDecode :
    (1 ≤ (0x0100 : CmdWord).toNat / 256 ∧ (0x05FF : CmdWord).toNat / 256 ≤ 5) ∧
    ¬ (1 ≤ (0x00FF : CmdWord).toNat / 256) ∧ ¬ ((0x0600 : CmdWord).toNat / 256 ≤ 5) ∧
    (95 : MicroWord).toNat < 96 ∧ ¬ (96 : MicroWord).toNat < 96 := by decide

theorem witness_LegalCommandWords :
    (decodeCommand 0x041F = .ok (.rdig 31) ∧ (Instr.rdig 31).wellFormed = true) ∧
    (decodeCommand 0x0420 = .ok (.rdig 32) ∧ (Instr.rdig 32).wellFormed = false) := by decide

theorem witness_StepRunsPresentedCommand :
    ((offering State.reset 0x0100 []).offered 0x0100 [] ∧ decodeCommand 0x0100 = .ok (.init 0)) ∧
    ((offering State.reset 0x0000 []).offered 0x0000 [] ∧ decodeCommand 0x0000 = .error (.illegalOpcode 0)) := by
  decide +kernel

theorem witness_StepRunsSequencerMicroOp :
    let s := permutingAt .final ⟨23, .iota⟩
    s.activity = .permuting .final ∧ s.noReset ∧
      decodeMicro (BitVec.ofNat 5 s.seq.rnd.val ++ s.seq.stp.code) = .ok (.iota 23) := by decide +kernel

theorem witness_FetchWordRunsTheRow :
    decodeTableWord 16 0x05FF = some (.rdsr 0xFF) ∧ decodeTableWord 8 0x5F = some (.iota 23) := by decide

theorem witness_CommandCompletesWithOneResponse :
    (offering State.reset 0xFFFF [.reset]).offered 0xFFFF [.reset] := by decide +kernel

theorem witness_IdleStepHoldsState : State.reset.activity = .rest ∧ State.reset.input = [] := by decide

theorem witness_SequencerAdvance :
    (permutingAt .absorb ⟨23, .chi⟩).seq.stp.code.toNat < 3 ∧
    ((permutingAt .absorb ⟨22, .iota⟩).seq.stp.code.toNat = 3 ∧ (permutingAt .absorb ⟨22, .iota⟩).seq.rnd.val < 23) ∧
    ((permutingAt .absorb ⟨23, .iota⟩).seq.stp.code.toNat = 3 ∧ (permutingAt .absorb ⟨23, .iota⟩).seq.rnd.val = 23) ∧
    (1 ≤ 95 ∧ 95 ≤ 95) := by
  decide +kernel

theorem witness_ThetaResult : (permutingAt .absorb ⟨23, .theta⟩).seq = ⟨23, .theta⟩ := by decide

theorem witness_RhopiResult : (permutingAt .absorb ⟨0, .rhopi⟩).seq = ⟨0, .rhopi⟩ := by decide

theorem witness_ChiResult : (permutingAt .final ⟨23, .chi⟩).seq = ⟨23, .chi⟩ := by decide

theorem witness_IotaResult : (permutingAt .final ⟨23, .iota⟩).seq = ⟨23, .iota⟩ := by decide

theorem witness_RoundConstantsFromLfsr : (RC 2).getLsbD 63 = true ∧ (RC 0).getLsbD 0 = true := by decide

theorem witness_RotationAmountsFromWalk : ((4 : Fin 5), (4 : Fin 5)) ≠ (0, 0) := by decide

theorem witness_RotlMovesEveryBit : (63 : Fin 64) ≠ 0 ∧ (1 : Fin 64) ≠ 0 := by decide

theorem witness_RhopiChiIotaInjective :
    rhopi .zero = rhopi .zero ∧ chi .zero = chi .zero ∧ iota 0 .zero = iota 0 .zero := ⟨rfl, rfl, rfl⟩

theorem witness_StateWriteReplacesOneByte : (199 : Fin 200) ≠ 0 := by decide

theorem witness_XorBlockBytes :
    (135 : Fin 200).val < 136 ∧ ¬ (136 : Fin 200).val < 136 ∧ 17 ≤ (17 : Fin 25).val := by decide

theorem witness_PaddingRule :
    ((0 : BitVec 8).toNat ≤ 135 ∧ (0 : BitVec 8).toNat = 0) ∧ (134 : BitVec 8).toNat ≤ 134 ∧
    ((135 : BitVec 8).toNat ≤ 135 ∧ (135 : BitVec 8).toNat = 135) := by decide

theorem witness_PaddedMessageLength : (134 : Nat) ≤ 134 ∧ (135 : Nat) ≤ 135 ∧ (135 : BitVec 8).toNat ≤ 135 := by decide

theorem witness_InitStartsComputation : (0x80 : Byte) ≠ 0 := by decide

theorem witness_AbsorbStoresByte :
    ((at_ .absorb 134).phase = .absorb ∧ (at_ .absorb 134).off.toNat ≤ 134) ∧
    ((at_ .absorb 0).phase = .absorb ∧ (at_ .absorb 0).off.toNat ≤ 134) := by decide +kernel

theorem witness_AbsorbCompletesBlock :
    (at_ .absorb 135).phase = .absorb ∧ (at_ .absorb 135).activity = .rest ∧ (at_ .absorb 135).off = 135 := by
  decide +kernel

theorem witness_FinalAbsorbsPaddedBlock :
    ((at_ .absorb 135).phase = .absorb ∧ (at_ .absorb 135).activity = .rest ∧ (at_ .absorb 135).off.toNat ≤ 135) ∧
    ((at_ .absorb 0).phase = .absorb ∧ (at_ .absorb 0).activity = .rest ∧ (at_ .absorb 0).off.toNat ≤ 135) ∧
    (0x01 : Byte) ≠ 0 ∧ (at_ .fault 0).phase ≠ .absorb := by
  decide +kernel

theorem witness_RdigReadsDigestByte :
    ((at_ .done 0).phase = .done ∧ (31 : Byte).toNat < 32 ∧ (0 : Byte).toNat < 32) ∧
    32 ≤ (32 : Byte).toNat ∧ 32 ≤ (255 : Byte).toNat ∧ ((31 : Byte).toNat < 32 ∧ (at_ .absorb 0).phase ≠ .done) := by
  decide +kernel

theorem witness_RdsrReadsStatus : 2 ≤ (2 : Byte).toNat ∧ 2 ≤ (255 : Byte).toNat := by decide

theorem witness_ReadsHaveNoSideEffects :
    ((at_ .done 0).activity = .rest ∧ (at_ .done 0).phase = .done ∧
      ∃ i : Byte, i.toNat < 32 ∧ (0x041F : CmdWord) = cmdWord 0x04 i) ∧
    ((at_ .fault 2).activity = .rest ∧ ∃ n : Byte, n.toNat < 2 ∧ (0x0501 : CmdWord) = cmdWord 0x05 n) ∧
    (∃ u, exec (.rdig 31) (at_ .done 0) = .next u) ∧ (∃ u, exec (.rdsr 2) (at_ .fault 2) = .next u) :=
  ⟨⟨by decide +kernel, by decide +kernel, 31, by decide⟩, ⟨by decide +kernel, 1, by decide⟩, ⟨_, rfl⟩, ⟨_, rfl⟩⟩

theorem witness_PhaseTransitions :
    (31 : Byte).toNat < 32 ∧ (1 : Byte).toNat < 2 ∧ (offering State.reset 0x0420 []).offered 0x0420 [] ∧
      ¬ ∃ j, decodeCommand 0x0420 = .ok j ∧ j.wellFormed = true := by
  refine ⟨by decide, by decide, by decide +kernel, ?_⟩
  rintro ⟨j, hj, hw⟩
  have h : decodeCommand 0x0420 = .ok (.rdig 32) := by decide
  rw [h] at hj
  cases hj
  exact absurd hw (by decide)

/-- One offered word for each branch of the priority order. -/
theorem witness_FaultPriority :
    (offering State.reset 0x0600 []).offered 0x0600 [] ∧ (offering State.reset 0x00FF []).offered 0x00FF [] ∧
    (offering State.reset 0x0101 []).offered 0x0101 [] ∧ (offering State.reset 0x03FF []).offered 0x03FF [] ∧
    (offering State.reset 0x0420 []).offered 0x0420 [] ∧ (offering State.reset 0x0502 []).offered 0x0502 [] ∧
    ((offering State.reset 0x0200 []).offered 0x0200 [] ∧ State.reset.phase ≠ .absorb) ∧
    ((offering (at_ .absorb 0) 0x041F []).offered 0x041F [] ∧ (at_ .absorb 0).phase ≠ .done) ∧
    ((offering (at_ .done 0) 0x041F []).offered 0x041F [] ∧ (at_ .done 0).phase = .done) := by decide +kernel

theorem witness_FaultsInFaultChangeNothing :
    (offering (at_ .fault 3) 0x0100 []).offered 0x0100 [] ∧ (offering (at_ .fault 3) 0x0500 []).offered 0x0500 [] ∧
    (offering (at_ .fault 3) 0x0501 []).offered 0x0501 [] ∧ (offering (at_ .fault 3) 0x0400 []).offered 0x0400 [] ∧
    (at_ .fault 3).phase = .fault := by decide +kernel

theorem witness_OnlyInitAndResetLeaveFault :
    let s := offering (at_ .fault 3) 0x0100 []
    let r := (at_ .fault 3).present [.reset]
    (s.Inv ∧ s.phase = .fault ∧ (after (step s)).map (fun t => decide (t.phase ≠ .fault)) = some true) ∧
    (r.Inv ∧ r.phase = .fault ∧ (after (step r)).map (fun t => decide (t.phase ≠ .fault)) = some true) := by
  decide +kernel

theorem witness_SameWordFaultsAgain :
    let s := offering State.reset 0x0400 [.command 0x0400]
    (s.offered 0x0400 [.command 0x0400] ∧ (after (step s)).map (·.rsp) = some (some ⟨true, 4⟩)) ∧
    (offering State.reset 0x0420 []).offered 0x0420 [] := by decide +kernel

theorem witness_ResetAbandonsEverything :
    let s : State := { permutingAt .final ⟨7, .chi⟩ with input := [.reset, .command 0x0100] }
    let s' : State := { at_ .fault 9 with input := [.reset, .command 0x0100] }
    s.input = .reset :: [.command 0x0100] ∧ s'.input = .reset :: [.command 0x0100] ∧ s.hasTap = s'.hasTap := by decide

theorem witness_StepKeepsInvariant :
    let s := permutingAt .absorb ⟨23, .iota⟩
    let r := offering (at_ .absorb 135) 0x02FF []
    (s.Inv ∧ (after (step s)).isSome = true) ∧ (r.Inv ∧ (after (step r)).isSome = true) := by decide +kernel

theorem witness_StatusRegisterValues :
    ((at_ .absorb 135).Inv ∧ (at_ .absorb 135).cmdReady = true) ∧ (2 : Byte).toNat ≥ 2 ∧ (255 : Byte).toNat ≥ 2 := by
  decide +kernel

/-- Both ways to meet the first hypothesis: outside DONE with any lanes, and in DONE with the same digest window. -/
theorem witness_OnlyDigestWindowIsReadable :
    let s := offering (at_ .absorb 5) 0x0400 []
    let r := offering (at_ .done 0) 0x041F []
    (s.phase ≠ .done ∧ (after (step s)).isSome = true ∧
      (after (step { s with lanes := lanesOf fun _ => 7, buf := Vector.replicate 136 7 })).isSome = true) ∧
    ((∀ a : Fin 200, a.val < 32 → stRead (lanesOf fun i => if i < 4 then 0 else 7) a = stRead r.lanes a) ∧
      (after (step r)).isSome = true) := by decide +kernel

theorem witness_TapIsTransparent :
    (after (step (permutingAt .final ⟨0, .theta⟩))).isSome = true := by decide +kernel

theorem witness_TapEventsOfCommands :
    ((at_ .absorb 135).phase = .absorb ∧ (at_ .absorb 135).hasTap = true ∧ (at_ .absorb 135).tap = [] ∧
      (at_ .absorb 135).off = 135) ∧
    ((at_ .absorb 134).phase = .absorb ∧ (at_ .absorb 134).off.toNat ≤ 134) := by decide +kernel

theorem witness_ControlIsDataIndependent :
    (after (step (offering (at_ .absorb 135) 0x0200 []))).isSome = true := by decide +kernel

theorem witness_InitForgetsThePast :
    (at_ .fault 9).activity = .rest ∧ State.reset.activity = .rest ∧ (at_ .fault 9).hasTap = State.reset.hasTap := by
  decide

theorem witness_MachineComputesKeccak256 : (at_ .fault 9).activity = .rest := by decide

theorem witness_EmptyMessageDigest : (at_ .done 0).activity = .rest := by decide

theorem witness_MicroSteppingMatchesCommand :
    let s := offering (at_ .absorb 135) 0x0300 [.reset]
    s.phase = .absorb ∧ s.activity = .rest ∧ s.noReset ∧ s.off.toNat ≤ 135 ∧ s.off = 135 := by decide +kernel

theorem witness_PermuteIsNotInterrupted :
    let s : State := { permutingAt .absorb ⟨0, .theta⟩ with input := [.command 0x0100] }
    s.activity = .permuting .absorb ∧ s.seq = ⟨0, .theta⟩ ∧ s.noReset ∧ 1 ≤ 1 ∧ 95 ≤ 95 := by decide +kernel

theorem witness_ChunksAssembleAlike :
    (assembleLine (.hash [0x61, 255])).map (·.length) = some 36 := by decide +kernel

/-- Both edges: all of the lanes and of BUF free in IDLE, and BUF free at byte 135 only in ABSORB. -/
theorem witness_StepKeepsStatesAlike :
    let s := offering (at_ .absorb 135) 0x0200 []
    (State.reset.alikeToHost { State.reset with lanes := lanesOf fun _ => 7, buf := Vector.replicate 136 7 } ∧
      (after (step State.reset)).isSome = true) ∧
    (s.alikeToHost { s with buf := s.buf.setIfInBounds 135 7 } ∧ (after (step s)).isSome = true) := by decide +kernel

/-- A message of 135 bytes in BUF, for the ABSORB that fills it and for FINAL; and the step from reset. -/
theorem witness_StepKeepsMessage :
    (State.absorbing (List.replicate 135 0) (offering (at_ .absorb 135) (cmdWord 0x02 0xFF) []) ∧
      (offering (at_ .absorb 135) (cmdWord 0x02 0xFF) []).offered (cmdWord 0x02 0xFF) []) ∧
    (State.absorbing (List.replicate 135 0) (offering (at_ .absorb 135) 0x0300 []) ∧
      (offering (at_ .absorb 135) 0x0300 []).offered 0x0300 []) ∧
    (offering State.reset 0x0100 []).offered 0x0100 [] ∧
    (State.reset.activity = .rest ∧ State.reset.phase ≠ .absorb ∧ State.reset.phase ≠ .done ∧
      (after (step State.reset)).isSome = true) := by decide +kernel

end Sys2Proof.Tests
end

section
namespace Sys2Proof.Proofs
open Sys2Proof Sys2Proof.Machine

/-- Rotating left by `n < w` carries bit `b` to bit `(b + n) mod w`: either the sum stays within the word, or it wraps
once. -/
theorem getLsbD_rotateLeft_add_mod {w n b : Nat} (v : BitVec w) (hn : n < w) (hb : b < w) :
    (v.rotateLeft n).getLsbD ((b + n) % w) = v.getLsbD b := by
  rw [BitVec.getLsbD_rotateLeft_of_le hn]
  rcases Nat.lt_or_ge (b + n) w with hstay | hwrap
  · have hmod : (b + n) % w = b + n := Nat.mod_eq_of_lt hstay
    simp [hmod, hstay]
  · have hmod : (b + n) % w = b + n - w := by
      rw [Nat.mod_eq_sub_mod hwrap, Nat.mod_eq_of_lt (by omega)]
    have hlow : b + n - w < n := by omega
    have hsource : w - n + (b + n - w) = b := by omega
    simp [hmod, hlow, hsource]

/-- Rotating by 0 changes nothing (R3). -/
@[simp] theorem rotl_zero (v : Lane) : rotl v 0 = v := if_pos rfl

/-- For an amount other than 0, `rotl` is the OR of the two shifts (R3). -/
theorem rotl_of_ne_zero (v : Lane) {n : Fin 64} (hn : n ≠ 0) :
    rotl v n = (v <<< n.val) ||| (v >>> (64 - n.val)) := if_neg hn

/-- `rotl` carries bit `b` to bit `(b + n) mod 64` (R3). -/
theorem getLsbD_rotl_add_mod (v : Lane) (n b : Fin 64) :
    (rotl v n).getLsbD ((b.val + n.val) % 64) = v.getLsbD b.val := by
  rw [rotl_eq_rotateLeft]
  exact getLsbD_rotateLeft_add_mod v n.isLt b.isLt

/-- Settles O21: the bit equation through the library's rotation, the two other clauses by the branches of `rotl`. -/
theorem rotlMovesEveryBit : Obligations.RotlMovesEveryBit := fun v n b =>
  ⟨getLsbD_rotl_add_mod v n b, rotl_zero v, rotl_of_ne_zero v⟩

end Sys2Proof.Proofs
end

section
namespace Sys2Proof.Proofs
open Sys2Proof Sys2Proof.Machine

/-! ## The invariant speaks of PHASE, ECODE, OFF, SEQ and the command in progress only -/

theorem inv_respond (f : Bool) (d : Byte) (s : State) : (respond f d s).Inv ↔ s.Inv := Iff.rfl

theorem inv_withInput (rest : List HostEvent) (s : State) : ({ s with input := rest } : State).Inv ↔ s.Inv := Iff.rfl

/-- The invariant at rest: the clauses about a PERMUTE in progress say nothing. -/
theorem inv_iff_of_rest {s : State} (ha : s.activity = .rest) :
    s.Inv ↔ (s.ecode ≠ .none ↔ s.phase = .fault) ∧ (s.phase = .idle ∨ s.phase = .done → s.off = 0) ∧
      s.seq = .start ∧ s.off.toNat ≤ 135 := by
  simp [State.Inv, State.ecodeMatchesPhase, State.offMatchesPhase, State.activityMatches, ha]

/-- Outside FAULT there is no fault cause (R15). -/
theorem ecode_eq_none_of_inv {s : State} (h : s.Inv) (hp : s.phase ≠ .fault) : s.ecode = .none := by
  obtain ⟨hecode, -⟩ := h
  by_contra he
  exact hp (hecode.mp he)

/-- A PERMUTE runs in phase ABSORB (R122, R123). -/
theorem phase_eq_absorb_of_inv {s : State} {c : Caller} (h : s.Inv) (ha : s.activity = .permuting c) :
    s.phase = .absorb := by
  obtain ⟨-, -, -, hAbsorb, hFinal⟩ := h
  cases c with
  | absorb => exact (hAbsorb ha).1
  | final => exact (hFinal ha).1

/-! ## Reset -/

/-- Settles O44: PHASE IDLE, ECODE none, OFF 0, SEQ (0, 0), nothing in progress. -/
theorem invariantAtReset : Obligations.InvariantAtReset := fun h =>
  (inv_iff_of_rest (s := State.resetOf h) rfl).mpr
    ⟨by decide +revert, fun _ => rfl, rfl, by decide +revert⟩

theorem inv_resetBlock (rest : List HostEvent) (s : State) : (resetBlock rest s).Inv :=
  (inv_withInput rest _).mpr (invariantAtReset s.hasTap)

/-! ## What a command does at rest keeps the invariant -/

theorem inv_raiseFault {s : State} (c : Cause) (ha : s.activity = .rest) (h : s.Inv) : (raiseFault c s).Inv := by
  obtain ⟨hecode, -, hseq, hoff⟩ := (inv_iff_of_rest ha).mp h
  refine (inv_iff_of_rest (by simpa)).mpr ⟨?_, by simp, by simpa, by simpa⟩
  by_cases hp : s.phase = .fault
  · simpa [hp] using hecode
  · cases c <;> simp [hp, Cause.ecode]

theorem inv_initBody {s : State} (ha : s.activity = .rest) (h : s.Inv) : (initBody () s).Inv := by
  obtain ⟨-, -, hseq, -⟩ := (inv_iff_of_rest ha).mp h
  exact (inv_iff_of_rest (by simpa [initBody])).mpr (by simpa [initBody] using hseq)

/-- The end of a command that included a PERMUTE leaves OFF 0 and SEQ where the PERMUTE left it (R122, R123). -/
theorem inv_finishCommand {s : State} (c : Caller) (hp : s.phase = .absorb) (he : s.ecode = .none)
    (hq : s.seq = .start) : (finishCommand c s).Inv := by
  rw [inv_iff_of_rest (finishCommand_activity c s)]
  cases c <;> simp [hp, he, hq]

/-- Absorbing a block and ending the command keeps the invariant, whatever was buffered. -/
theorem inv_finishCommand_absorbBlk {s : State} (c : Caller) (blk : Block) (hp : s.phase = .absorb)
    (he : s.ecode = .none) : (finishCommand c (absorbBlk c blk s)).Inv := by
  rw [absorbBlk_eq]
  exact inv_finishCommand c hp he rfl

/-- Below 135, OFF + 1 does not wrap (R13). -/
theorem off_add_one_toNat {o : BitVec 8} (ho : o.toNat ≤ 135) : (o + 1).toNat = o.toNat + 1 := by
  bv_omega

theorem inv_bufPut {s : State} (b : Byte) (ha : s.activity = .rest) (hp : s.phase = .absorb) (h : s.Inv)
    (hne : s.off ≠ 135) : (bufPut b s).Inv := by
  obtain ⟨hecode, -, hseq, hoff⟩ := (inv_iff_of_rest ha).mp h
  refine (inv_iff_of_rest (s := bufPut b s) ha).mpr ⟨hecode, by simp [hp], hseq, ?_⟩
  rw [bufPut_off, off_add_one_toNat hoff]
  bv_omega

theorem inv_absorbBody {s : State} (b : Byte) (ha : s.activity = .rest) (hp : s.phase = .absorb) (h : s.Inv) :
    (absorbBody b s).Inv := by
  by_cases hlast : s.off = 135
  · have he : s.ecode = .none := ecode_eq_none_of_inv h (by simp [hp])
    rw [absorbBody_of_eq hlast]
    exact inv_finishCommand_absorbBlk .absorb _ hp he
  · rw [absorbBody_of_ne hlast, inv_respond]
    exact inv_bufPut b ha hp h hlast

/-- A command word that decodes keeps the invariant, whether it faults or runs its body. -/
theorem inv_exec_command {w : CmdWord} {i : Instr} {s t : State} (hd : decodeCommand w = .ok i)
    (he : exec i s = .next t) (ha : s.activity = .rest) (h : s.Inv) : t.Inv := by
  obtain ⟨c, rfl⟩ | ⟨-, rfl⟩ | ⟨b, -, hp, rfl⟩ | ⟨-, hp, rfl⟩ | ⟨_, k, -, -, -, rfl⟩ | ⟨_, k, -, -, rfl⟩ :=
    exec_command_cases hd he
  · exact inv_raiseFault c ha h
  · exact inv_initBody ha h
  · exact inv_absorbBody b ha hp h
  · exact inv_finishCommand_absorbBlk .final _ hp (ecode_eq_none_of_inv h (by simp [hp]))
  · exact h
  · exact h

/-! ## Inside a PERMUTE -/

/-- A micro-operation leaves PHASE, ECODE, OFF and the command in progress; so does `settle`, until SEQ is back at
(0, 0) (R76). -/
theorem inv_settle_microOp {s : State} {c : Caller} (ha : s.activity = .permuting c) (h : s.Inv) :
    (settle c (microOp s.seq s)).Inv := by
  have hp : s.phase = .absorb := phase_eq_absorb_of_inv h ha
  rw [microOp_eq]
  by_cases hq : s.seq.next = .start
  · rw [settle_of_eq hq]
    have he : s.ecode = .none := ecode_eq_none_of_inv h (by simp [hp])
    exact inv_finishCommand c hp he hq
  · rw [settle_of_ne hq]
    obtain ⟨hecode, hoff, -, hAbsorb, hFinal⟩ := h
    exact ⟨hecode, hoff, fun hrest => by simp [ha] at hrest, hAbsorb, hFinal⟩

/-! ## The step lemma -/

/-- Settles O45, by the cases of a step: a reset starts afresh, a micro-operation stays in phase ABSORB until the command
ends, a command word faults or runs its body, and an idle step changes no register. -/
theorem stepKeepsInvariant : Obligations.StepKeepsInvariant := by
  intro s t h hstep
  obtain ⟨rest, -, rfl⟩ | ⟨c, ha, -, rfl⟩ | ⟨w, rest, i, ha, -, hd, he⟩ | ⟨w, rest, e, ha, -, -, rfl⟩ | ⟨-, -, rfl⟩ :=
    step_cases hstep
  · exact inv_resetBlock rest s
  · exact inv_settle_microOp (s := clearOutputs s) ha h
  · exact inv_exec_command hd he ha h
  · exact inv_raiseFault .illop ha h
  · exact h

end Sys2Proof.Proofs
end

section
namespace Sys2Proof.Proofs
open Sys2Proof Sys2Proof.Machine

/-! ## A step at rest, by what the host presents -/

theorem step_of_reset {s : State} {rest : List HostEvent} (hi : s.input = .reset :: rest) :
    step s = .next (resetBlock rest s) := by
  simp [step, fetch, hi]

theorem step_of_idle {s : State} (ha : s.activity = .rest) (hi : s.input = []) :
    step s = .next (clearOutputs s) := by
  simp [step, fetch, ha, hi]

theorem step_of_command {s : State} {w : CmdWord} {rest : List HostEvent} {i : Instr} (ha : s.activity = .rest)
    (hi : s.input = .command w :: rest) (hd : decodeCommand w = .ok i) :
    step s = exec i (clearOutputs { s with input := rest }) := by
  simp [step, fetch, accept, ha, hi, hd]

theorem step_of_illegal {s : State} {w : CmdWord} {rest : List HostEvent} {e : DecodeError} (ha : s.activity = .rest)
    (hi : s.input = .command w :: rest) (hd : decodeCommand w = .error e) :
    step s = .next (raiseFault .illop (clearOutputs { s with input := rest })) := by
  simp [step, fetch, accept, ha, hi, hd]

/-! ## Lanes and BUF that an operation does not look at -/

theorem raiseFault_withData (c : Cause) (lanes : Lanes) (buf : Block) (s : State) :
    raiseFault c { s with lanes := lanes, buf := buf } = { raiseFault c s with lanes := lanes, buf := buf } := by
  by_cases hp : s.phase = .fault <;> simp [raiseFault, respond, hp]

theorem emitTap_withBuf (k : TapKind) (r : Fin 24) (buf : Block) (s : State) :
    emitTap k r { s with buf := buf } = { emitTap k r s with buf := buf } := by
  by_cases h : s.hasTap = true <;> simp [emitTap, h]

theorem absorbBlk_withBuf (c : Caller) (blk buf : Block) (s : State) :
    absorbBlk c blk { s with buf := buf } = { absorbBlk c blk s with buf := buf } := by
  simp only [absorbBlk_eq]
  rfl

theorem finishCommand_withBuf (c : Caller) (buf : Block) (s : State) :
    finishCommand c { s with buf := buf } = { finishCommand c s with buf := buf } := by
  cases c with
  | absorb => rfl
  | final => simp only [finishCommand, emitTap_withBuf]; rfl

/-- PADBLK reads BUF below OFF only (R12, R103). -/
theorem padBlk_congr {buf buf' : Block} {off : BitVec 8}
    (h : ∀ k : Fin 136, k.val < off.toNat → buf'[k.val] = buf[k.val]) : padBlk buf' off = padBlk buf off := by
  have hbyte : padByte buf' off = padByte buf off := by
    funext k
    unfold padByte
    split
    · next hk => exact h k hk
    · rfl
  simp only [padBlk, hbyte]

/-- A byte stored at OFF in two buffers that agree below OFF makes them agree below OFF + 1 (R100). -/
theorem setIfInBounds_agree {buf buf' : Block} {n : Nat} (b : Byte)
    (h : ∀ k : Fin 136, k.val < n → buf'[k.val] = buf[k.val]) (k : Fin 136) (hk : k.val < n + 1) :
    (buf'.setIfInBounds n b)[k.val] = (buf.setIfInBounds n b)[k.val] := by
  rw [Vector.getElem_setIfInBounds, Vector.getElem_setIfInBounds]
  split
  · rfl
  · exact h k (by omega)

/-! ## States alike to the host -/

theorem alikeToHost_refl {s : State} (ha : s.activity = .rest) (ho : s.off.toNat ≤ 135) : s.alikeToHost s :=
  ⟨ha, ho, rfl, fun _ => rfl, fun _ _ => rfl⟩

/-- With OFF 0 no byte of BUF is defined (R12). -/
theorem alikeToHost_withBuf {s : State} (buf : Block) (ha : s.activity = .rest) (ho : s.off = 0) :
    s.alikeToHost { s with buf := buf } :=
  ⟨ha, by simp [ho], rfl, fun _ => rfl, fun k hk => by simp [ho] at hk⟩

/-- A view of the state that looks at neither the lanes nor BUF is the same in states alike. -/
theorem view_eq_of_alike {α : Type} {s t : State} (h : s.alikeToHost t) (view : State → α)
    (hview : ∀ lanes buf, view { s with lanes := lanes, buf := buf } = view s) : view t = view s := by
  obtain ⟨-, -, heq, -, -⟩ := h
  exact (congrArg view heq).trans (hview t.lanes t.buf)

/-- In phases ABSORB and DONE only BUF can differ, and only at or above OFF. -/
theorem exists_withBuf_of_alike {s t : State} (h : s.alikeToHost t) (hp : s.phase = .absorb ∨ s.phase = .done) :
    ∃ buf : Block, t = { s with buf := buf } ∧ ∀ k : Fin 136, k.val < s.off.toNat → buf[k.val] = s.buf[k.val] := by
  obtain ⟨-, -, heq, hlanes, hbuf⟩ := h
  rw [hlanes hp] at heq
  exact ⟨t.buf, heq, hbuf⟩

theorem alikeToHost_respond {s t : State} (f : Bool) (d : Byte) (h : s.alikeToHost t) :
    (respond f d s).alikeToHost (respond f d t) := by
  obtain ⟨ha, ho, heq, hlanes, hbuf⟩ := h
  exact ⟨ha, ho, congrArg (respond f d) heq, hlanes, hbuf⟩

theorem alikeToHost_clearOutputs {s t : State} (h : s.alikeToHost t) :
    (clearOutputs s).alikeToHost (clearOutputs t) := by
  obtain ⟨ha, ho, heq, hlanes, hbuf⟩ := h
  exact ⟨ha, ho, congrArg clearOutputs heq, hlanes, hbuf⟩

theorem alikeToHost_withInput {s t : State} (rest : List HostEvent) (h : s.alikeToHost t) :
    State.alikeToHost { s with input := rest } { t with input := rest } := by
  obtain ⟨ha, ho, heq, hlanes, hbuf⟩ := h
  exact ⟨ha, ho, congrArg (State.present · rest) heq, hlanes, hbuf⟩

/-- In FAULT the lanes are not read, so a fault may be taken with any lanes. -/
theorem alikeToHost_raiseFault {s t : State} (c : Cause) (h : s.alikeToHost t) :
    (raiseFault c s).alikeToHost (raiseFault c t) := by
  obtain ⟨ha, ho, heq, -, hbuf⟩ := h
  have hfault : raiseFault c t = { raiseFault c s with lanes := t.lanes, buf := t.buf } :=
    (congrArg (raiseFault c) heq).trans (raiseFault_withData c t.lanes t.buf s)
  rw [hfault]
  exact ⟨by simpa, by simpa, rfl, by simp, by simpa⟩

/-- INIT zeroes the lanes and empties the buffer (R121). -/
theorem alikeToHost_initBody {s t : State} (h : s.alikeToHost t) : (initBody () s).alikeToHost (initBody () t) := by
  obtain ⟨ha, -, heq, -, -⟩ := h
  have hinit : initBody () t = { initBody () s with buf := t.buf } := congrArg (initBody ()) heq
  rw [hinit]
  exact alikeToHost_withBuf t.buf ha rfl

/-- FINAL absorbs the same padded block in both states (R123). -/
theorem alikeToHost_finalBody {s t : State} (h : s.alikeToHost t) (hp : s.phase = .absorb) :
    (finalBody () s).alikeToHost (finalBody () t) := by
  obtain ⟨buf, rfl, hbuf⟩ := exists_withBuf_of_alike h (.inl hp)
  have hpad : padBlk buf s.off = padBlk s.buf s.off := padBlk_congr hbuf
  have hfinal : finalBody () { s with buf := buf } = { finalBody () s with buf := buf } := by
    simp only [finalBody, hpad, absorbBlk_withBuf, finishCommand_withBuf]
  rw [hfinal]
  exact alikeToHost_withBuf buf (finishCommand_activity .final _) (finishCommand_off .final _)

/-- The byte that fills the buffer leaves no byte of BUF undefined (R13). -/
theorem bufPut_eq_of_alike {s t : State} (b : Byte) (h : s.alikeToHost t) (hp : s.phase = .absorb)
    (hlast : s.off = 135) : bufPut b t = bufPut b s := by
  obtain ⟨buf, rfl, hbuf⟩ := exists_withBuf_of_alike h (.inl hp)
  have hfull : buf.setIfInBounds s.off.toNat b = s.buf.setIfInBounds s.off.toNat b := by
    apply Vector.ext
    intro k hk
    exact setIfInBounds_agree b hbuf ⟨k, hk⟩ (by simp [hlast]; omega)
  simp only [bufPut, hfull]

/-- A byte that does not fill the buffer makes one more byte of BUF defined, the same in both states (R122). -/
theorem alikeToHost_bufPut {s t : State} (b : Byte) (h : s.alikeToHost t) (hp : s.phase = .absorb)
    (hne : s.off ≠ 135) : (bufPut b s).alikeToHost (bufPut b t) := by
  obtain ⟨buf, rfl, hbuf⟩ := exists_withBuf_of_alike h (.inl hp)
  obtain ⟨ha, ho, -⟩ := h
  have hoff : (s.off + 1).toNat = s.off.toNat + 1 := off_add_one_toNat ho
  refine ⟨ha, ?_, rfl, fun _ => rfl, fun k hk => ?_⟩
  · rw [bufPut_off, hoff]
    bv_omega
  · rw [bufPut_off, hoff] at hk
    exact setIfInBounds_agree b hbuf k hk

theorem alikeToHost_absorbBody {s t : State} (b : Byte) (h : s.alikeToHost t) (hp : s.phase = .absorb) :
    (absorbBody b s).alikeToHost (absorbBody b t) := by
  have hoff : t.off = s.off := view_eq_of_alike h State.off fun _ _ => rfl
  by_cases hlast : s.off = 135
  · rw [absorbBody_of_eq hlast, absorbBody_of_eq (hoff.trans hlast), bufPut_eq_of_alike b h hp hlast]
    exact alikeToHost_refl (finishCommand_activity _ _) (by simp)
  · rw [absorbBody_of_ne hlast, absorbBody_of_ne (by rwa [hoff])]
    exact alikeToHost_respond false 0x00 (alikeToHost_bufPut b h hp hlast)

/-- The digest is read in DONE, where the lanes are the same (R124). -/
theorem alikeToHost_rdigBody {s t : State} (k : Fin 32) (h : s.alikeToHost t) (hp : s.phase = .done) :
    (rdigBody k s).alikeToHost (rdigBody k t) := by
  obtain ⟨buf, rfl, -⟩ := exists_withBuf_of_alike h (.inr hp)
  exact alikeToHost_respond false (squeeze k s.lanes) h

/-- The status registers are views of ECODE, PHASE and OFF (R17). -/
theorem alikeToHost_rdsrBody {s t : State} (n : Fin 2) (h : s.alikeToHost t) :
    (rdsrBody n s).alikeToHost (rdsrBody n t) := by
  have hstatus : t.statusRegister n = s.statusRegister n := 
    view_eq_of_alike h (State.statusRegister · n) fun _ _ => rfl
  simp only [rdsrBody, hstatus]
  exact alikeToHost_respond false _ h

/-! ## Answers alike to the host -/

/-- Both answers are next states, and these are alike to the host. -/
def AnswersAlike (a a' : Result) : Prop :=
  ∃ t t', a = .next t ∧ a' = .next t' ∧ t.alikeToHost t'

theorem answersAlike_next {t t' : State} (h : t.alikeToHost t') : AnswersAlike (.next t) (.next t') :=
  ⟨t, t', rfl, rfl, h⟩

/-- The checks of a command (R120) read PHASE only, so a command whose body keeps states alike keeps them alike. -/
theorem answersAlike_carryOut {α : Type} {operand : Except Cause α} {allowed : Phase → Bool} {body : α → State → State}
    {s t : State} (h : s.alikeToHost t)
    (hbody : ∀ a, allowed s.phase = true → (body a s).alikeToHost (body a t)) :
    AnswersAlike (carryOut operand allowed body s) (carryOut operand allowed body t) := by
  have hphase : t.phase = s.phase := view_eq_of_alike h State.phase fun _ _ => rfl
  cases operand with
  | error c => exact answersAlike_next (alikeToHost_raiseFault c h)
  | ok a =>
    simp only [carryOut, hphase]
    split
    · next hp => exact answersAlike_next (hbody a hp)
    · exact answersAlike_next (alikeToHost_raiseFault .badphase h)

theorem answersAlike_exec_command {w : CmdWord} {i : Instr} {s t : State} (hd : decodeCommand w = .ok i)
    (h : s.alikeToHost t) : AnswersAlike (exec i s) (exec i t) := by
  rcases decodeCommand_cases hd with rfl | rfl | rfl | rfl | rfl
  · rw [exec_init, exec_init]
    exact answersAlike_carryOut h fun _ _ => alikeToHost_initBody h
  · rw [exec_absorb, exec_absorb]
    exact answersAlike_carryOut h fun b hp => alikeToHost_absorbBody b h (by simpa [inAbsorb] using hp)
  · rw [exec_final, exec_final]
    exact answersAlike_carryOut h fun _ hp => alikeToHost_finalBody h (by simpa [inAbsorb] using hp)
  · rw [exec_rdig, exec_rdig]
    exact answersAlike_carryOut h fun k hp => alikeToHost_rdigBody k h (by simpa [inDone] using hp)
  · rw [exec_rdsr, exec_rdsr]
    exact answersAlike_carryOut h fun n _ => alikeToHost_rdsrBody n h

/-- What the host presents decides which step is taken, and it is the same in both states. -/
theorem answersAlike_step {s t : State} (h : s.alikeToHost t) : AnswersAlike (step s) (step t) := by
  have ha : s.activity = .rest := h.1
  have ha' : t.activity = .rest := (view_eq_of_alike h State.activity fun _ _ => rfl).trans ha
  have hinput : t.input = s.input := view_eq_of_alike h State.input fun _ _ => rfl
  have hhasTap : t.hasTap = s.hasTap := view_eq_of_alike h State.hasTap fun _ _ => rfl
  rcases hi : s.input with _ | ⟨w | _, rest⟩
  · rw [step_of_idle ha hi, step_of_idle ha' (hinput.trans hi)]
    exact answersAlike_next (alikeToHost_clearOutputs h)
  · have htaken : State.alikeToHost (clearOutputs { s with input := rest }) (clearOutputs { t with input := rest }) :=
      alikeToHost_clearOutputs (alikeToHost_withInput rest h)
    rcases hd : decodeCommand w with e | i
    · rw [step_of_illegal ha hi hd, step_of_illegal ha' (hinput.trans hi) hd]
      exact answersAlike_next (alikeToHost_raiseFault .illop htaken)
    · rw [step_of_command ha hi hd, step_of_command ha' (hinput.trans hi) hd]
      exact answersAlike_exec_command hd htaken
  · rw [step_of_reset hi, step_of_reset (hinput.trans hi)]
    have hreset : resetBlock rest t = resetBlock rest s := by simp only [resetBlock, hhasTap]
    rw [hreset]
    exact answersAlike_next (alikeToHost_refl rfl (Nat.zero_le 135))

/-- Settles O59: the two steps answer alike, and states alike show the host the same. -/
theorem stepKeepsStatesAlike : Obligations.StepKeepsStatesAlike := by
  intro s s' t h hstep
  obtain ⟨u, t', hu, ht', halike⟩ := answersAlike_step h
  obtain rfl : u = t := by rw [hu] at hstep; exact Host.Outcome.next.inj hstep
  exact ⟨t', ht', halike, view_eq_of_alike halike State.shown fun _ _ => rfl⟩

end Sys2Proof.Proofs
end

section
namespace Sys2Proof.Proofs
open Sys2Proof Sys2Proof.Machine

/-! ## The status registers (R17) -/

theorem sr0_extract_ecode (s : State) : s.sr0.extractLsb' 4 4 = s.ecode.code :=
  BitVec.extractLsb'_append_eq_left

theorem sr0_extract_reserved (s : State) : s.sr0.extractLsb' 2 2 = 0 := by
  unfold State.sr0
  rw [BitVec.extractLsb'_append_eq_of_add_le (by decide)]
  exact BitVec.extractLsb'_append_eq_left

theorem sr0_extract_phase (s : State) : s.sr0.extractLsb' 0 2 = s.phase.code := by
  unfold State.sr0
  rw [BitVec.extractLsb'_append_eq_of_add_le (by decide)]
  exact BitVec.extractLsb'_append_eq_right

/-- In FAULT the upper half of SR0 is one of the four causes; outside it, 0 (R15, R17). -/
theorem sr0_mem_of_inv {s : State} (h : s.Inv) :
    s.sr0 ∈ ([0x00, 0x01, 0x02, 0x13, 0x23, 0x33, 0x43] : List Byte) := by
  unfold State.sr0
  by_cases hp : s.phase = .fault
  · obtain ⟨hecode, -⟩ := h
    have he : s.ecode ≠ .none := hecode.mpr hp
    rw [hp]
    cases hcause : s.ecode with
    | none => exact absurd hcause he
    | illop | rsvarg | badidx | badphase => decide
  · rw [ecode_eq_none_of_inv h hp]
    cases hphase : s.phase with
    | fault => exact absurd hphase hp
    | idle | absorb | done => decide

theorem sr1_le_of_inv {s : State} (h : s.Inv) (hready : s.cmdReady = true) : s.sr1.toNat ≤ 135 := by
  have ha : s.activity = .rest := by simpa [State.cmdReady] using hready
  obtain ⟨-, -, -, hoff⟩ := (inv_iff_of_rest ha).mp h
  exact hoff

/-- RDSR 0 and RDSR 1 pass every check and respond with the register (R125). -/
theorem exec_rdsr_of_lt {n : Byte} (hn : n.toNat < 2) (s : State) :
    exec (.rdsr n) s = .next (respond false (s.statusRegister ⟨n.toNat, hn⟩) s) := by
  rw [exec_rdsr, statusNumber_lt hn]
  rfl

/-- Any other number is out of range (R51, R125). -/
theorem exec_rdsr_of_ge {n : Byte} (hn : 2 ≤ n.toNat) (s : State) :
    exec (.rdsr n) s = .next (raiseFault .badidx s) := by
  rw [exec_rdsr, statusNumber_ge hn]
  rfl

/-- Settles O46: the fields of SR0 by the concatenation that builds it, its values by the invariant, the reads by the
operand check of RDSR. -/
theorem statusRegisterValues : Obligations.StatusRegisterValues :=
  ⟨fun s =>
    ⟨⟨sr0_extract_ecode s, sr0_extract_reserved s, sr0_extract_phase s⟩, rfl,
      fun h => ⟨sr0_mem_of_inv h, sr1_le_of_inv h⟩,
      exec_rdsr_of_lt (by decide) s, exec_rdsr_of_lt (by decide) s, fun _ hn => exec_rdsr_of_ge hn s⟩,
    fun h => ⟨by decide +revert, rfl⟩⟩

/-- Settles O42: the values of R160, whatever HAS_TAP is. -/
theorem resetRegisters : Obligations.ResetRegisters :=
  ⟨rfl, fun h => ⟨rfl, rfl, rfl, rfl, rfl, by decide +revert, rfl, rfl, rfl, rfl⟩⟩

/-! ## The round constants (R18, R19) -/

theorem eq_of_getLsbD_one_shiftLeft {n b : Nat} (h : ((1 : Lane) <<< n).getLsbD b = true) : b = n := by
  have hbit : (1#64 <<< n).getLsbD b = true := h
  rw [← BitVec.twoPow_eq, BitVec.getLsbD_twoPow, Bool.and_eq_true] at hbit
  exact (of_decide_eq_true hbit.2).symm

/-- The bits of lanes ORed together one place at a time are among these places. -/
theorem getLsbD_foldl_or_shiftLeft {p : Nat → Bool} {place : Nat → Nat} {js : List Nat} {c : Lane} {b : Nat}
    (h : (js.foldl (fun (c : Lane) j => if p j then c ||| (1 <<< place j) else c) c).getLsbD b = true) :
    c.getLsbD b = true ∨ ∃ j ∈ js, b = place j := by
  induction js generalizing c with
  | nil => exact .inl h
  | cons j js ih =>
    obtain hc | ⟨i, hi, hb⟩ := ih h
    · by_cases hp : p j = true
      · simp only [hp, if_true, BitVec.getLsbD_or, Bool.or_eq_true] at hc
        exact hc.imp_right fun hbit => ⟨j, List.mem_cons_self, eq_of_getLsbD_one_shiftLeft hbit⟩
      · exact .inl (by simpa [hp] using hc)
    · exact .inr ⟨i, List.mem_cons_of_mem j hi, hb⟩

/-- The seven output bits of R19 go to the places 2^j - 1. -/
theorem mem_of_getLsbD_lfsrRoundConstant {r b : Nat} (h : (lfsrRoundConstant r).getLsbD b = true) :
    b ∈ [0, 1, 3, 7, 15, 31, 63] := by
  obtain hzero | ⟨j, hj, rfl⟩ := getLsbD_foldl_or_shiftLeft h
  · simp at hzero
  · have hplaces : ∀ j ∈ List.range 7, 2 ^ j - 1 ∈ [0, 1, 3, 7, 15, 31, 63] := by decide
    exact hplaces j hj

/-- The table of R18 against the generator of R19, round by round. -/
theorem RC_eq_lfsrRoundConstant : ∀ r : Fin 24, RC r = lfsrRoundConstant r.val := by decide

/-- Settles O19: the table is compared with the generator, and the generator sets the seven places only. -/
theorem roundConstantsFromLfsr : Obligations.RoundConstantsFromLfsr :=
  ⟨RC_eq_lfsrRoundConstant, fun r b h => by
    rw [RC_eq_lfsrRoundConstant r] at h
    exact mem_of_getLsbD_lfsrRoundConstant h⟩

/-! ## The rotation amounts (R20, R21) -/

/-- The map of R21 takes only the origin to the origin, so the walk never gets there. -/
theorem rhoWalk_ne_origin (t : Nat) : rhoWalk t ≠ (0, 0) := by
  have hmap : ∀ x y : Fin 5, (y, 2 * x + 3 * y) = ((0 : Fin 5), (0 : Fin 5)) → (x, y) = (0, 0) := by decide
  induction t with
  | zero => decide
  | succ t ih => exact fun h => ih (hmap (rhoWalk t).1 (rhoWalk t).2 h)

/-- The position of step `t` of the walk, as one of the 24 other than the origin. -/
def rhoVisit (t : Fin 24) : { p : Fin 5 × Fin 5 // p ≠ (0, 0) } := ⟨rhoWalk t.val, rhoWalk_ne_origin t.val⟩

/-- The walk reaches all 24 positions in 24 steps, so it reaches none twice. -/
theorem rhoVisit_bijective : Function.Bijective rhoVisit := by
  have hreach : ∀ x y : Fin 5, (x, y) ≠ (0, 0) → ∃ t : Fin 24, rhoWalk t.val = (x, y) := by decide
  refine (Fintype.bijective_iff_surjective_and_card rhoVisit).mpr ⟨fun ⟨⟨x, y⟩, hp⟩ => ?_, by decide⟩
  obtain ⟨t, ht⟩ := hreach x y hp
  exact ⟨t, Subtype.ext ht⟩

/-- Settles O20: the table is compared with the walk, and the walk is a bijection onto the 24 positions. -/
theorem rotationAmountsFromWalk : Obligations.RotationAmountsFromWalk := by
  refine ⟨by decide, fun x y hp => ?_, fun t => rhoWalk_ne_origin t.val⟩
  simpa [rhoVisit] using rhoVisit_bijective.existsUnique ⟨(x, y), hp⟩

end Sys2Proof.Proofs
end

section
namespace Sys2Proof.Proofs
open Sys2Proof Sys2Proof.Machine

/-! ## The blocks of a message (R105) -/

/-- A block is determined by its 136 bytes of the sequence. -/
theorem eq_blockOf {blk : Block} {p : List Byte} {n : Nat}
    (h : ∀ k : Fin 136, some blk[k.val] = p[136 * n + k.val]?) : blk = blockOf p n := by
  apply Vector.ext
  intro k hk
  have hbyte : some blk[k] = p[136 * n + k]? := h ⟨k, hk⟩
  simp [blockOf, ← hbyte]

/-- Bytes appended to a sequence leave the blocks it has in full as they are. -/
theorem blockOf_append {m x : List Byte} {n : Nat} (h : n < m.length / 136) : blockOf (m ++ x) n = blockOf m n := by
  have hget : ∀ k : Fin 136, (m ++ x).getD (136 * n + k.val) 0 = m.getD (136 * n + k.val) 0 := fun k =>
    List.getD_append _ _ _ _ (by omega)
  simp only [blockOf, hget]

theorem map_blockOf_append (m x : List Byte) :
    (List.range (m.length / 136)).map (blockOf (m ++ x)) = (List.range (m.length / 136)).map (blockOf m) :=
  List.map_congr_left fun _ hn => blockOf_append (List.mem_range.mp hn)

/-! ## The padded block against the padded message (R103, R106) -/

/-- Below OFF the padded block holds the buffered bytes. -/
theorem padBlk_getElem_of_lt {buf : Block} {off : BitVec 8} {k : Nat} (ho : off.toNat ≤ 135) (hk : k < off.toNat) :
    (padBlk buf off)[k] = buf[k] := by
  rw [padBlk_get _ _ _ (by omega), if_neg (by omega)]
  exact if_pos hk

/-- From OFF on the padded block holds the bytes of pad(OFF). -/
theorem some_padBlk_getElem_eq_pad {buf : Block} {off : BitVec 8} {k : Nat} (hoff : off.toNat ≤ k) (hk : k < 136) :
    some (padBlk buf off)[k] = (pad off.toNat)[k - off.toNat]? := by
  have hbyte : padByte buf off ⟨k, hk⟩ = if k = off.toNat then 0x01 else 0x00 := if_neg (by simpa using hoff)
  rw [padBlk_get _ _ _ hk, hbyte]
  by_cases hlast : off.toNat = 135
  · obtain rfl : k = 135 := by omega
    simp [pad, hlast]
  · rcases Nat.eq_or_lt_of_le hoff with hfirst | hmore
    · simp [pad, hlast, ← hfirst]
    · have hne : k ≠ off.toNat := by omega
      obtain ⟨j, hj⟩ : ∃ j, k - off.toNat = j + 1 := ⟨k - off.toNat - 1, by omega⟩
      by_cases hend : k = 135
      · subst hend
        have hj' : j = 134 - off.toNat := by omega
        simp [pad, hlast, hne, hj, hj']
      · simp [pad, hlast, hne, hend, hj, List.getElem?_append, show j < 134 - off.toNat by omega]

/-! ## Buffering a message -/

/-- BUF below `n` holds what the message has beyond its full blocks. -/
def BufHolds (buf : Block) (n : Nat) (m : List Byte) : Prop :=
  ∀ k : Fin 136, k.val < n → some buf[k.val] = m[136 * (m.length / 136) + k.val]?

/-- The lanes after the full blocks of a message (R105, R110). -/
def lanesOfFullBlocks (m : List Byte) : Lanes :=
  ((List.range (m.length / 136)).map (blockOf m)).foldl absorbLanes .zero

theorem absorbing_iff {m : List Byte} {s : State} :
    s.absorbing m ↔ s.activity = .rest ∧ s.phase = .absorb ∧ s.off.toNat = m.length % 136 ∧
      s.lanes = lanesOfFullBlocks m ∧ BufHolds s.buf s.off.toNat m := Iff.rfl

/-- A byte stored at OFF is the next byte of the message (R100). -/
theorem some_setIfInBounds_getElem_eq_append {buf : Block} {m : List Byte} (b : Byte) (h : BufHolds buf (m.length % 136) m)
    (k : Fin 136) (hk : k.val < m.length % 136 + 1) :
    some (buf.setIfInBounds (m.length % 136) b)[k.val] = (m ++ [b])[136 * (m.length / 136) + k.val]? := by
  rw [Vector.getElem_setIfInBounds]
  by_cases hnext : m.length % 136 = k.val
  · have hend : 136 * (m.length / 136) + k.val = m.length := by omega
    simp [hnext, hend]
  · rw [if_neg hnext, List.getElem?_append_left (by omega)]
    exact h k (by omega)

/-- A byte that fills no block leaves the lanes of the full blocks. -/
theorem lanesOfFullBlocks_append_of_ne {m : List Byte} (b : Byte) (hne : m.length % 136 ≠ 135) :
    lanesOfFullBlocks (m ++ [b]) = lanesOfFullBlocks m := by
  have hcount : (m ++ [b]).length / 136 = m.length / 136 := by simp; omega
  rw [lanesOfFullBlocks, hcount, map_blockOf_append, ← lanesOfFullBlocks]

/-- The byte that fills a block adds this block to the fold. -/
theorem lanesOfFullBlocks_append_of_eq {m : List Byte} (b : Byte) (hlast : m.length % 136 = 135) :
    lanesOfFullBlocks (m ++ [b]) = absorbLanes (lanesOfFullBlocks m) (blockOf (m ++ [b]) (m.length / 136)) := by
  have hcount : (m ++ [b]).length / 136 = m.length / 136 + 1 := by simp; omega
  rw [lanesOfFullBlocks, hcount, List.range_succ, List.map_append, map_blockOf_append]
  simp [lanesOfFullBlocks]

/-- The padded block is the last block of the padded message (R103, R105). -/
theorem padBlk_eq_blockOf {buf : Block} {off : BitVec 8} {m : List Byte} (hoff : off.toNat = m.length % 136)
    (h : BufHolds buf off.toNat m) : padBlk buf off = blockOf (padded m) (m.length / 136) := by
  apply eq_blockOf
  intro k
  rcases Nat.lt_or_ge k.val off.toNat with hmessage | hpadding
  · rw [padBlk_getElem_of_lt (by omega) hmessage, padded, List.getElem?_append_left (by omega)]
    exact h k hmessage
  · have hindex : 136 * (m.length / 136) + k.val - m.length = k.val - off.toNat := by omega
    rw [some_padBlk_getElem_eq_pad hpadding k.isLt, padded, List.getElem?_append_right (by omega), hindex, hoff]

/-- The final state is the last block of the padded message absorbed after the full blocks (R105). -/
theorem spongeState_eq (m : List Byte) :
    spongeState m = absorbLanes (lanesOfFullBlocks m) (blockOf (padded m) (m.length / 136)) := by
  rw [spongeState, blocks, List.range_succ, List.map_append, padded, map_blockOf_append]
  simp [lanesOfFullBlocks]

/-! ## What a command does to the message -/

/-- INIT makes the message empty (R121). -/
theorem absorbing_initBody {s : State} (ha : s.activity = .rest) : (initBody () s).absorbing [] :=
  ⟨ha, rfl, rfl, rfl, fun k hk => absurd hk (Nat.not_lt_zero k.val)⟩

/-- ABSORB appends its byte to the message (R122). -/
theorem absorbing_absorbBody {m : List Byte} {s : State} (b : Byte) (h : s.absorbing m) :
    (absorbBody b s).absorbing (m ++ [b]) := by
  obtain ⟨ha, hp, hoff, hlanes, hbuf⟩ := absorbing_iff.mp h
  rw [hoff] at hbuf
  have hstored := some_setIfInBounds_getElem_eq_append b hbuf
  by_cases hlast : s.off = 135
  · have hfull : m.length % 136 = 135 := by rw [← hoff, hlast]; rfl
    have hblock : s.buf.setIfInBounds (m.length % 136) b = blockOf (m ++ [b]) (m.length / 136) :=
      eq_blockOf fun k => hstored k (by omega)
    rw [absorbBody_of_eq hlast, absorbBlk_eq]
    refine absorbing_iff.mpr ⟨finishCommand_activity _ _, by simpa using hp, ?_, ?_, fun k hk => by simp at hk⟩
    · simp; omega
    · rw [lanesOfFullBlocks_append_of_eq b hfull, ← hblock, ← hlanes, ← hoff]
      simp
  · have hmore : m.length % 136 ≠ 135 := fun hfull => hlast (BitVec.eq_of_toNat_eq (hoff.trans hfull))
    have hoff' : (s.off + 1).toNat = m.length % 136 + 1 := by rw [off_add_one_toNat (by omega), hoff]
    have hcount : (m ++ [b]).length / 136 = m.length / 136 := by simp; omega
    rw [absorbBody_of_ne hlast]
    refine absorbing_iff.mpr ⟨ha, hp, ?_, ?_, fun k hk => ?_⟩
    · rw [respond_off, bufPut_off, hoff']
      simp; omega
    · exact hlanes.trans (lanesOfFullBlocks_append_of_ne b hmore).symm
    · rw [respond_off, bufPut_off, hoff'] at hk
      rw [hcount, ← hstored k hk, ← hoff]
      rfl

/-- FINAL absorbs the last block of the padded message (R123). -/
theorem hashed_finalBody {m : List Byte} {s : State} (h : s.absorbing m) : (finalBody () s).hashed m := by
  obtain ⟨-, -, hoff, hlanes, hbuf⟩ := absorbing_iff.mp h
  have hblock : padBlk s.buf s.off = blockOf (padded m) (m.length / 136) := padBlk_eq_blockOf hoff hbuf
  refine ⟨finishCommand_activity _ _, by simp [finalBody], finishCommand_off _ _, ?_⟩
  rw [spongeState_eq, ← hblock, ← hlanes, finalBody, absorbBlk_eq]
  simp

/-! ## Every step keeps the message -/

theorem messageInv_of_absorbing {m : List Byte} {s : State} (h : s.absorbing m) : s.MessageInv := by
  have ⟨ha, hp, _⟩ := h
  exact ⟨ha, fun _ => ⟨m, h⟩, fun hdone => by simp [hp] at hdone⟩

theorem messageInv_of_hashed {m : List Byte} {s : State} (h : s.hashed m) : s.MessageInv := by
  have ⟨ha, hp, _⟩ := h
  exact ⟨ha, fun habsorb => by simp [hp] at habsorb, fun _ => ⟨m, h⟩⟩

/-- Outside ABSORB and DONE the block holds no message. -/
theorem messageInv_of_ne {s : State} (ha : s.activity = .rest) (habsorb : s.phase ≠ .absorb) (hdone : s.phase ≠ .done) :
    s.MessageInv :=
  ⟨ha, fun hp => absurd hp habsorb, fun hp => absurd hp hdone⟩

theorem messageInv_resetOf (hasTap : Bool) : (State.resetOf hasTap).MessageInv :=
  messageInv_of_ne rfl nofun nofun

theorem messageInv_raiseFault {s : State} (c : Cause) (ha : s.activity = .rest) : (raiseFault c s).MessageInv :=
  messageInv_of_ne (by simpa) (by simp) (by simp)

theorem messageInv_exec_command {w : CmdWord} {i : Instr} {s t : State} (hd : decodeCommand w = .ok i)
    (he : exec i s = .next t) (h : s.MessageInv) : t.MessageInv := by
  have hrest : s.activity = .rest := h.1
  obtain ⟨c, rfl⟩ | ⟨-, rfl⟩ | ⟨b, -, hp, rfl⟩ | ⟨-, hp, rfl⟩ | ⟨_, k, -, -, -, rfl⟩ | ⟨_, k, -, -, rfl⟩ :=
    exec_command_cases hd he
  · exact messageInv_raiseFault c hrest
  · exact messageInv_of_absorbing (absorbing_initBody hrest)
  · obtain ⟨-, habsorb, -⟩ := h
    obtain ⟨m, hm⟩ := habsorb hp
    exact messageInv_of_absorbing (absorbing_absorbBody b hm)
  · obtain ⟨-, habsorb, -⟩ := h
    obtain ⟨m, hm⟩ := habsorb hp
    exact messageInv_of_hashed (hashed_finalBody hm)
  · exact h
  · exact h

theorem messageInv_step {s t : State} (h : s.MessageInv) (hstep : step s = .next t) : t.MessageInv := by
  have hrest : s.activity = .rest := h.1
  obtain ⟨rest, -, rfl⟩ | ⟨c, ha, -, -⟩ | ⟨w, rest, i, -, -, hd, he⟩ | ⟨w, rest, e, -, -, -, rfl⟩ | ⟨-, -, rfl⟩ :=
    step_cases hstep
  · exact messageInv_resetOf s.hasTap
  · simp [hrest] at ha
  · exact messageInv_exec_command hd he h
  · exact messageInv_raiseFault .illop hrest
  · exact h

/-! ## Steps of INIT, ABSORB and FINAL -/

/-- The ports are not part of what the block holds of a message. -/
theorem absorbing_clearOutputs {m : List Byte} {s : State} (rest : List HostEvent) (h : s.absorbing m) :
    State.absorbing m (clearOutputs { s with input := rest }) := h

/-- A command whose operand is legal and whose phase allows it runs its body (R120). -/
theorem carryOut_ok {α : Type} {a : α} {allowed : Phase → Bool} {body : α → State → State} {s : State}
    (hp : allowed s.phase = true) : carryOut (.ok a) allowed body s = .next (body a s) :=
  if_pos hp

theorem decodeCommand_absorb (b : Byte) : decodeCommand (cmdWord 0x02 b) = .ok (.absorb b) := by
  simp [decodeCommand]

/-- An offered INIT runs its body. -/
theorem step_of_init {s : State} {rest : List HostEvent} (h : s.offered 0x0100 rest) :
    step s = .next (initBody () (clearOutputs { s with input := rest })) :=
  step_of_command h.1 h.2 (by decide : decodeCommand 0x0100 = .ok (.init 0))

/-- An ABSORB offered in phase ABSORB runs its body. -/
theorem step_of_absorb {s : State} {b : Byte} {rest : List HostEvent} (h : s.offered (cmdWord 0x02 b) rest)
    (hp : s.phase = .absorb) : step s = .next (absorbBody b (clearOutputs { s with input := rest })) := by
  rw [step_of_command h.1 h.2 (decodeCommand_absorb b), exec_absorb, byteOperand_ok]
  exact carryOut_ok (by simp [inAbsorb, hp])

/-- A FINAL offered in phase ABSORB runs its body. -/
theorem step_of_final {s : State} {rest : List HostEvent} (h : s.offered 0x0300 rest) (hp : s.phase = .absorb) :
    step s = .next (finalBody () (clearOutputs { s with input := rest })) := by
  rw [step_of_command h.1 h.2 (by decide : decodeCommand 0x0300 = .ok (.final 0)), exec_final, noOperand_zero]
  exact carryOut_ok (by simp [inAbsorb, hp])

/-- Settles O60: every step keeps the invariant because the three bodies track the message exactly, and an offered INIT,
ABSORB or FINAL runs its body. -/
theorem stepKeepsMessage : Obligations.StepKeepsMessage := by
  refine ⟨messageInv_resetOf, fun s t => messageInv_step, fun s rest hw => ?_, fun m s b rest h hw => ?_,
    fun m s rest h hw => ?_⟩
  · exact ⟨_, step_of_init hw, absorbing_initBody hw.1⟩
  · have ⟨_, hp, _⟩ := h
    exact ⟨_, step_of_absorb hw hp, absorbing_absorbBody b (absorbing_clearOutputs rest h)⟩
  · have ⟨_, hp, _⟩ := h
    exact ⟨_, step_of_final hw hp, hashed_finalBody (absorbing_clearOutputs rest h)⟩

end Sys2Proof.Proofs
end

section
namespace Sys2Proof.Proofs
open Sys2Proof Sys2Proof.Machine

/-! ## Bytes of a lane (R31, R32) -/

theorem getLsbD_laneByte (v : Lane) (k b : Fin 8) : (laneByte v k).getLsbD b.val = v.getLsbD (8 * k.val + b.val) := by
  simp [laneByte]

/-- A lane is its eight bytes, the first least significant. -/
theorem append_laneByte (v : Lane) :
    laneByte v 7 ++ laneByte v 6 ++ laneByte v 5 ++ laneByte v 4 ++ laneByte v 3 ++ laneByte v 2 ++ laneByte v 1 ++
      laneByte v 0 = v := by
  simp only [laneByte]
  repeat rw [BitVec.extractLsb'_append_extractLsb'_eq_extractLsb' (by decide)]
  exact BitVec.extractLsb'_eq_self

/-- The mask of a byte is ones in the lowest eight places. -/
theorem getLsbD_byteMask (n : Nat) : (0xFF : Lane).getLsbD n = decide (n < 8) := by
  have hmask : (0xFF : Lane) = (BitVec.allOnes 8).setWidth 64 := by decide
  rw [hmask, BitVec.getLsbD_setWidth, BitVec.getLsbD_allOnes]
  by_cases hn : n < 8
  · simp [hn]; omega
  · simp [hn]

/-- A replaced byte fills its own eight places, and in all others the lane is as it was (R32). -/
theorem getLsbD_setLaneByte (v : Lane) (k : Fin 8) (x : Byte) {n : Nat} (hn : n < 64) :
    (setLaneByte v k x).getLsbD n =
      if 8 * k.val ≤ n ∧ n < 8 * k.val + 8 then x.getLsbD (n - 8 * k.val) else v.getLsbD n := by
  simp only [setLaneByte, BitVec.getLsbD_or, BitVec.getLsbD_and, BitVec.getLsbD_not, BitVec.getLsbD_shiftLeft,
    BitVec.getLsbD_setWidth, getLsbD_byteMask, hn]
  rcases Nat.lt_or_ge n (8 * k.val) with hbelow | hge
  · rw [if_neg (by omega)]
    simp [hbelow]
  · rcases Nat.lt_or_ge n (8 * k.val + 8) with hin | habove
    · have hplace : n - 8 * k.val < 8 := by omega
      rw [if_pos ⟨hge, hin⟩]
      simp [hge.not_gt, hplace, show n - 8 * k.val < 64 by omega]
    · have hplace : 8 ≤ n - 8 * k.val := by omega
      rw [if_neg (by omega)]
      simp [hplace]

theorem laneByte_setLaneByte_same (v : Lane) (k : Fin 8) (x : Byte) : laneByte (setLaneByte v k x) k = x :=
  BitVec.eq_of_getLsbD_eq fun b hb => by
    rw [getLsbD_laneByte _ k ⟨b, hb⟩, getLsbD_setLaneByte _ _ _ (by omega), if_pos (by omega)]
    simp

theorem laneByte_setLaneByte_of_ne (v : Lane) {k k' : Fin 8} (x : Byte) (hk : k' ≠ k) :
    laneByte (setLaneByte v k x) k' = laneByte v k' :=
  BitVec.eq_of_getLsbD_eq fun b hb => by
    have hval : k'.val ≠ k.val := Fin.val_ne_of_ne hk
    rw [getLsbD_laneByte _ k' ⟨b, hb⟩, getLsbD_laneByte _ k' ⟨b, hb⟩, getLsbD_setLaneByte _ _ _ (by omega),
      if_neg (by omega)]

/-! ## Bytes of ST -/

theorem stRead_eq_laneByte (l : Lanes) (i : Fin 25) (k : Fin 8) :
    stRead l ⟨8 * i.val + k.val, by omega⟩ = laneByte (l.get i) k := by
  have hlane : stLane ⟨8 * i.val + k.val, by omega⟩ = i := Fin.ext (by simp only [stLane]; omega)
  have hbyte : stByte ⟨8 * i.val + k.val, by omega⟩ = k := Fin.ext (by simp only [stByte]; omega)
  rw [stRead, hlane, hbyte]

/-- A byte of ST is determined by its lane and its place in it (R31). -/
theorem eq_of_stLane_eq {a a' : Fin 200} (hlane : stLane a' = stLane a) (hbyte : stByte a' = stByte a) : a' = a := by
  have hdiv : a'.val / 8 = a.val / 8 := congrArg Fin.val hlane
  have hmod : a'.val % 8 = a.val % 8 := congrArg Fin.val hbyte
  exact Fin.ext (by omega)

/-- Settles O23: the bytes of ST are those of its lanes, and a lane is its eight bytes. -/
theorem stateBytesAreLittleEndian : Obligations.StateBytesAreLittleEndian := by
  refine ⟨fun l a b => getLsbD_laneByte _ (stByte a) b, fun l i => ?_, Lanes.get_laneNumber⟩
  have hbyte := stRead_eq_laneByte l i
  exact (append_laneByte (l.get i)).symm.trans (by
    rw [← hbyte 0, ← hbyte 1, ← hbyte 2, ← hbyte 3, ← hbyte 4, ← hbyte 5, ← hbyte 6, ← hbyte 7]; rfl)

/-- Settles O24: another byte is in another lane, or in another place of the same lane. -/
theorem stateWriteReplacesOneByte : Obligations.StateWriteReplacesOneByte := by
  refine fun l a v => ⟨?_, fun a' hne => ?_⟩
  · rw [stRead, stWrite_get, if_pos rfl, laneByte_setLaneByte_same]
  · by_cases hlane : stLane a' = stLane a
    · have hbyte : stByte a' ≠ stByte a := fun hbyte => hne (eq_of_stLane_eq hlane hbyte)
      rw [stRead, stWrite_get, if_pos hlane, laneByte_setLaneByte_of_ne _ _ hbyte, ← stRead]
    · rw [stRead, stWrite_get, if_neg hlane, ← stRead]

end Sys2Proof.Proofs
end

section
namespace Sys2Proof.Proofs
open Sys2Proof Sys2Proof.Machine

/-! ## The response of a command -/

/-- Two answers give the same response. -/
def RespondAlike (a a' : Result) : Prop :=
  ∀ u u', a = .next u → a' = .next u' → u'.rsp = u.rsp

theorem respondAlike_next {u u' : State} (h : u'.rsp = u.rsp) : RespondAlike (.next u) (.next u') := by
  rintro _ _ ⟨⟩ ⟨⟩
  exact h

/-- The checks of a command (R120) read PHASE only, and a fault responds with its cause whatever the state is (R142). -/
theorem respondAlike_carryOut {α : Type} {operand : Except Cause α} {allowed : Phase → Bool} {body : α → State → State}
    {s t : State} (hphase : t.phase = s.phase)
    (hbody : ∀ a, allowed s.phase = true → (body a t).rsp = (body a s).rsp) :
    RespondAlike (carryOut operand allowed body s) (carryOut operand allowed body t) := by
  cases operand with
  | error c => exact respondAlike_next (by simp)
  | ok a =>
    simp only [carryOut, hphase]
    split
    · next hp => exact respondAlike_next (hbody a hp)
    · exact respondAlike_next (by simp)

theorem absorbBody_rsp (b : Byte) (s : State) : (absorbBody b s).rsp = some ⟨false, 0x00⟩ := by
  unfold absorbBody
  split
  · exact finishCommand_rsp .absorb _
  · rfl

theorem finalBody_rsp (s : State) : (finalBody () s).rsp = some ⟨false, 0x00⟩ := finishCommand_rsp .final _

/-- RDIG responds by PHASE and, in DONE, by the digest window (R124). -/
theorem respondAlike_rdig {s t : State} (idx : Byte) (hphase : t.phase = s.phase)
    (hdigest : s.phase = .done → ∀ k, squeeze k t.lanes = squeeze k s.lanes) :
    RespondAlike (exec (.rdig idx) s) (exec (.rdig idx) t) := by
  rw [exec_rdig, exec_rdig]
  refine respondAlike_carryOut hphase fun k hp => ?_
  have hsqueeze := hdigest (by simpa [inDone] using hp) k
  simp [rdigBody, hsqueeze]

/-- RDSR responds by the status registers (R125). -/
theorem respondAlike_rdsr {s t : State} (idx : Byte) (hphase : t.phase = s.phase)
    (hstatus : ∀ n, t.statusRegister n = s.statusRegister n) :
    RespondAlike (exec (.rdsr idx) s) (exec (.rdsr idx) t) := by
  rw [exec_rdsr, exec_rdsr]
  exact respondAlike_carryOut hphase fun n _ => by simp [rdsrBody, hstatus n]

/-- Outside DONE RDIG faults: with BADIDX where its index is out of range, else with BADPHASE (R124, R141). -/
theorem exec_rdig_faults {idx : Byte} {s u : State} (hp : s.phase ≠ .done) (he : exec (.rdig idx) s = .next u) :
    ∃ d, u.rsp = some ⟨true, d⟩ := by
  rw [exec_rdig] at he
  obtain ⟨c, -, rfl⟩ | ⟨k, -, -, rfl⟩ | ⟨k, -, hdone, -⟩ := carryOut_cases he
  · exact ⟨c.data, raiseFault_rsp c s⟩
  · exact ⟨Cause.badphase.data, raiseFault_rsp .badphase s⟩
  · exact absurd (by simpa [inDone] using hdone) hp

/-! ## What reads leave (R37) -/

/-- The second state differs from the first in the ports only: what the host presents, the response and the events. -/
def DifferInPorts (s t : State) : Prop := t = { s with input := t.input, rsp := t.rsp, tap := t.tap }

theorem differInPorts_ports (s : State) (input : List HostEvent) (rsp : Option Response) (tap : List TapEvent) :
    DifferInPorts s { s with input := input, rsp := rsp, tap := tap } := rfl

theorem DifferInPorts.trans {s t u : State} (hst : DifferInPorts s t) (htu : DifferInPorts t u) : DifferInPorts s u := by
  unfold DifferInPorts at *
  rw [htu, hst]

/-- The word is a legal RDIG, in phase DONE, or a legal RDSR. -/
def LegalRead (p : Phase) (w : CmdWord) : Prop :=
  (p = .done ∧ ∃ i : Byte, i.toNat < 32 ∧ w = cmdWord 0x04 i) ∨ ∃ n : Byte, n.toNat < 2 ∧ w = cmdWord 0x05 n

theorem decodeCommand_rdig (i : Byte) : decodeCommand (cmdWord 0x04 i) = .ok (.rdig i) := by
  simp [decodeCommand]

theorem decodeCommand_rdsr (n : Byte) : decodeCommand (cmdWord 0x05 n) = .ok (.rdsr n) := by
  simp [decodeCommand]

/-- A legal read takes its word and changes the ports only. -/
theorem step_of_legalRead {s : State} {w : CmdWord} {rest : List HostEvent} (hw : s.offered w rest)
    (hlegal : LegalRead s.phase w) : ∃ t, step s = .next t ∧ DifferInPorts s t ∧ t.input = rest := by
  obtain ⟨ha, hi⟩ := hw
  obtain ⟨hp, i, hlt, rfl⟩ | ⟨n, hlt, rfl⟩ := hlegal
  · rw [step_of_command ha hi (decodeCommand_rdig i), exec_rdig, digestIndex_lt hlt]
    exact ⟨_, carryOut_ok (by simp [inDone, hp]), rfl, rfl⟩
  · rw [step_of_command ha hi (decodeCommand_rdsr n), exec_rdsr_of_lt hlt]
    exact ⟨_, rfl, rfl, rfl⟩

/-- Any number of legal reads change the ports only. -/
theorem run_legalReads (ws : List CmdWord) {s : State} (ha : s.activity = .rest) (hi : s.input = ws.map .command)
    (hlegal : ∀ w ∈ ws, LegalRead s.phase w) :
    ∃ t, run ws.length s = .next t ∧ DifferInPorts s t ∧ t.input = [] := by
  induction ws generalizing s with
  | nil => exact ⟨s, rfl, rfl, hi⟩
  | cons w ws ih =>
    obtain ⟨t, hstep, hst, hinput⟩ := step_of_legalRead ⟨ha, hi⟩ (hlegal w List.mem_cons_self)
    have hact : t.activity = .rest := by rw [hst]; exact ha
    have hphase : t.phase = s.phase := by rw [hst]
    obtain ⟨u, hrun, htu, hdone⟩ := ih hact hinput fun x hx => hphase ▸ hlegal x (List.mem_cons_of_mem w hx)
    exact ⟨u, (run_succ hstep).trans hrun, hst.trans htu, hdone⟩

/-- Settles O35, by induction on the words read: each leaves all but the ports, and no read responds by the ports. -/
theorem readsHaveNoSideEffects : Obligations.ReadsHaveNoSideEffects := by
  intro s ws ha hlegal
  obtain ⟨t, hrun, hports, hinput⟩ := run_legalReads ws (s := s.present (ws.map .command)) ha rfl hlegal
  have hst : DifferInPorts s t := (differInPorts_ports s (ws.map .command) s.rsp s.tap).trans hports
  have hphase : t.phase = s.phase := by rw [hst]
  have hlanes : t.lanes = s.lanes := by rw [hst]
  have hstatus : ∀ n, t.statusRegister n = s.statusRegister n := fun n => by rw [hst]; rfl
  refine ⟨t, hrun, by rw [← hinput]; exact hst, fun i => ?_, fun n => ?_⟩
  · exact respondAlike_rdig i hphase fun _ k => by rw [hlanes]
  · exact respondAlike_rdsr n hphase hstatus

/-! ## What no response depends on (R39) -/

/-- The state with other lanes and another BUF. -/
def withData (lanes : Lanes) (buf : Block) (s : State) : State := { s with lanes := lanes, buf := buf }

theorem settle_microOp_rsp (c : Caller) (q : Sequencer) (s : State) :
    (settle c (microOp q s)).rsp = if q.next = .start then some ⟨false, 0x00⟩ else s.rsp := by
  rw [microOp_eq]
  by_cases hq : q.next = .start
  · rw [settle_of_eq hq, finishCommand_rsp, if_pos hq]
  · rw [settle_of_ne hq, if_neg hq]
    rfl

/-- A command responds by neither BUF nor the lanes, but for RDIG in DONE by the digest window. -/
theorem respondAlike_exec_withData {w : CmdWord} {i : Instr} {s : State} {l : Lanes} (buf : Block)
    (hd : decodeCommand w = .ok i) (hdigest : s.phase = .done → ∀ k, squeeze k l = squeeze k s.lanes) :
    RespondAlike (exec i s) (exec i (withData l buf s)) := by
  rcases decodeCommand_cases hd with rfl | rfl | rfl | rfl | rfl
  · rw [exec_init, exec_init]
    exact respondAlike_carryOut rfl fun _ _ => rfl
  · rw [exec_absorb, exec_absorb]
    exact respondAlike_carryOut rfl fun b _ => by rw [absorbBody_rsp, absorbBody_rsp]
  · rw [exec_final, exec_final]
    exact respondAlike_carryOut rfl fun _ _ => by rw [finalBody_rsp, finalBody_rsp]
  · exact respondAlike_rdig _ rfl hdigest
  · exact respondAlike_rdsr _ rfl fun _ => rfl

/-- What the host presents and the command in progress decide which step is taken; they are the same in both states. -/
theorem respondAlike_step_withData {s : State} {l : Lanes} (buf : Block)
    (hdigest : s.phase = .done → ∀ k, squeeze k l = squeeze k s.lanes) :
    RespondAlike (step s) (step (withData l buf s)) := by
  obtain ⟨rest, hi, -⟩ | ⟨c, ha, hi, -⟩ | ⟨w, rest, ha, hi, -⟩ | ⟨ha, hi, -⟩ := fetch_cases s
  · rw [step_of_reset hi, step_of_reset (s := withData l buf s) hi]
    exact respondAlike_next rfl
  · rw [step_permuting ha hi, step_permuting (s := withData l buf s) ha hi]
    exact respondAlike_next (by rw [settle_microOp_rsp, settle_microOp_rsp]; rfl)
  · rcases hd : decodeCommand w with e | i
    · rw [step_of_illegal ha hi hd, step_of_illegal (s := withData l buf s) ha hi hd]
      exact respondAlike_next (by rw [raiseFault_rsp, raiseFault_rsp])
    · rw [step_of_command ha hi hd, step_of_command (s := withData l buf s) ha hi hd]
      exact respondAlike_exec_withData (s := clearOutputs { s with input := rest }) buf hd hdigest
  · rw [step_of_idle ha hi, step_of_idle (s := withData l buf s) ha hi]
    exact respondAlike_next rfl

/-- Settles O47: the digest window is ST bytes 0 to 31, a step responds by no other data, and RDIG faults outside DONE. -/
theorem onlyDigestWindowIsReadable : Obligations.OnlyDigestWindowIsReadable := by
  intro s t t' l buf hwindow hstep hstep'
  have hdigest : s.phase = .done → ∀ k, squeeze k l = squeeze k s.lanes := fun hp k =>
    hwindow.resolve_left (absurd hp) (k.castLE (by decide)) k.isLt
  exact ⟨respondAlike_step_withData buf hdigest t t' hstep hstep', fun hp i u => exec_rdig_faults hp⟩

end Sys2Proof.Proofs
end

section
namespace Sys2Proof.Proofs
open Sys2Proof Sys2Proof.Machine

/-! ## Command words (R50, R53) -/

/-- A command word is its opcode and its operand. -/
theorem cmdWord_cmdOp_cmdArg (w : CmdWord) : cmdWord (cmdOp w) (cmdArg w) = w := by
  unfold cmdWord cmdOp cmdArg
  rw [BitVec.extractLsb'_append_extractLsb'_eq_extractLsb' (by decide)]
  exact BitVec.extractLsb'_eq_self

/-- The opcode selects the instruction and the operand byte is its operand (R53); with any other opcode nothing
decodes. -/
theorem decodeCommand_eq_ok_iff {w : CmdWord} {i : Instr} :
    decodeCommand w = .ok i ↔
      (cmdOp w = 0x01 ∧ i = .init (cmdArg w)) ∨ (cmdOp w = 0x02 ∧ i = .absorb (cmdArg w)) ∨
      (cmdOp w = 0x03 ∧ i = .final (cmdArg w)) ∨ (cmdOp w = 0x04 ∧ i = .rdig (cmdArg w)) ∨
      (cmdOp w = 0x05 ∧ i = .rdsr (cmdArg w)) := by
  unfold decodeCommand
  split_ifs with h1 h2 h3 h4 h5
  case neg => simp only [h1, h2, h3, h4, h5, false_and, or_self]
  all_goals simp [*, eq_comm (b := i)]

/-- A word with an opcode other than 1 to 5 is rejected with it (R54). -/
theorem decodeCommand_of_illegal {w : CmdWord} (h : ¬ (1 ≤ w.toNat / 256 ∧ w.toNat / 256 ≤ 5)) :
    decodeCommand w = .error (.illegalOpcode (cmdOp w)) := by
  rw [← cmdOp_toNat] at h
  have hne : ∀ k : Byte, 1 ≤ k.toNat ∧ k.toNat ≤ 5 → cmdOp w ≠ k := fun k hk heq => h (heq ▸ hk)
  simp [decodeCommand, hne]

theorem decodeCommand_of_legal {w : CmdWord} (h : 1 ≤ w.toNat / 256 ∧ w.toNat / 256 ≤ 5) :
    ∃ i, decodeCommand w = .ok i := by
  rw [← cmdOp_toNat] at h
  have hop : cmdOp w = 0x01 ∨ cmdOp w = 0x02 ∨ cmdOp w = 0x03 ∨ cmdOp w = 0x04 ∨ cmdOp w = 0x05 := by bv_omega
  rcases hop with hop | hop | hop | hop | hop <;> exact ⟨_, by simp only [decodeCommand, hop]; rfl⟩

theorem encode_of_decodeCommand {w : CmdWord} {i : Instr} (h : decodeCommand w = .ok i) : encode i = .command w := by
  obtain ⟨hop, rfl⟩ | ⟨hop, rfl⟩ | ⟨hop, rfl⟩ | ⟨hop, rfl⟩ | ⟨hop, rfl⟩ := decodeCommand_eq_ok_iff.mp h <;>
    rw [encode, ← hop, cmdWord_cmdOp_cmdArg]

/-! ## Micro-operation words (R56) -/

/-- The micro-operation word that SEQ is at, `RND ‖ STP`. -/
def seqWord (q : Sequencer) : MicroWord := microWord q.rnd q.stp.code

theorem seqWord_toNat (q : Sequencer) : (seqWord q).toNat = 4 * q.rnd.val + q.stp.code.toNat := by
  rw [seqWord, microWord, BitVec.toNat_append, ← Nat.shiftLeft_add_eq_or_of_lt q.stp.code.isLt, Nat.shiftLeft_eq]
  simp only [BitVec.toNat_ofNat]
  omega

theorem encode_seqInstr (q : Sequencer) : encode q.instr = .micro (seqWord q) := by
  obtain ⟨r, p⟩ := q
  cases p <;> rfl

theorem decodeMicro_seqWord (q : Sequencer) : decodeMicro (seqWord q) = .ok q.instr := by
  obtain ⟨r, p⟩ := q
  cases p <;> simp [decodeMicro, seqWord, Stp.code, Sequencer.instr]

theorem microRnd_toNat (u : MicroWord) : (microRnd u).toNat = u.toNat / 4 := by
  simp only [microRnd, BitVec.extractLsb'_toNat, Nat.shiftRight_eq_div_pow]
  have := u.isLt; omega

theorem exists_stp_code_eq (p : BitVec 2) : ∃ stp : Stp, stp.code = p := by
  have hcodes : ∀ p : BitVec 2, p = 0 ∨ p = 1 ∨ p = 2 ∨ p = 3 := by decide
  obtain rfl | rfl | rfl | rfl := hcodes p
  exacts [⟨.theta, rfl⟩, ⟨.rhopi, rfl⟩, ⟨.chi, rfl⟩, ⟨.iota, rfl⟩]

/-- The words below 96 are those that SEQ can be at. -/
theorem exists_eq_seqWord {u : MicroWord} (h : u.toNat < 96) : ∃ q, u = seqWord q := by
  obtain ⟨stp, hp⟩ := exists_stp_code_eq (microStp u)
  refine ⟨⟨⟨u.toNat / 4, by omega⟩, stp⟩, BitVec.eq_of_toNat_eq ?_⟩
  rw [seqWord_toNat, hp]
  simp only [microStp, BitVec.extractLsb'_toNat, Nat.shiftRight_zero]
  omega

theorem decodeMicro_of_ge {u : MicroWord} (h : 96 ≤ u.toNat) : decodeMicro u = .error (.reservedMicroOp u) := by
  have hrnd : ¬ (microRnd u).toNat < 24 := by rw [microRnd_toNat]; omega
  simp [decodeMicro, hrnd]

theorem encode_of_decodeMicro {u : MicroWord} {i : Instr} (h : decodeMicro u = .ok i) : encode i = .micro u := by
  rcases Nat.lt_or_ge u.toNat 96 with hlt | hge
  · obtain ⟨q, rfl⟩ := exists_eq_seqWord hlt
    rw [decodeMicro_seqWord] at h
    cases h
    exact encode_seqInstr q
  · rw [decodeMicro_of_ge hge] at h
    cases h

/-! ## Words of either kind -/

theorem decode_encode (i : Instr) : decode (encode i) = .ok i := by
  cases i with
  | init arg => exact decodeCommand_eq_ok_iff.mpr (by simp)
  | absorb b => exact decodeCommand_absorb b
  | final arg => exact decodeCommand_eq_ok_iff.mpr (by simp)
  | rdig idx => exact decodeCommand_rdig idx
  | rdsr idx => exact decodeCommand_rdsr idx
  | theta r => exact decodeMicro_seqWord ⟨r, .theta⟩
  | rhopi r => exact decodeMicro_seqWord ⟨r, .rhopi⟩
  | chi r => exact decodeMicro_seqWord ⟨r, .chi⟩
  | iota r => exact decodeMicro_seqWord ⟨r, .iota⟩

/-- A 16-bit row of the opcode table is a command word (R57). -/
theorem tableWord_command (w : CmdWord) : tableWord 16 (Encoded.command w).toNat = some (.command w) := by
  simp [tableWord, Encoded.toNat, w.isLt]

/-- A row of one byte is a micro-operation word. -/
theorem tableWord_micro (u : MicroWord) : tableWord 8 (Encoded.micro u).toNat = some (.micro u) := by
  simp [tableWord, Encoded.toNat, u.isLt]

theorem decodeTableWord_of_decode {nbits w : Nat} {e : Encoded} {i : Instr} (ht : tableWord nbits w = some e)
    (hd : decode e = .ok i) : decodeTableWord nbits w = some i := by
  simp [decodeTableWord, ht, hd]

/-- Settles O1: the decoder gives the instruction back, and the table numbering gives the word back. -/
theorem decodeEncodeRoundTrip : Obligations.DecodeEncodeRoundTrip := by
  intro i
  have hd := decode_encode i
  refine ⟨hd, ?_⟩
  rcases he : encode i with w | u
  · exact decodeTableWord_of_decode (tableWord_command w) (he ▸ hd)
  · exact decodeTableWord_of_decode (tableWord_micro u) (he ▸ hd)

/-- Settles O2, for command words by opcode and operand, for micro-operation words by the place of SEQ they name. -/
theorem decodedWordReencodes : Obligations.DecodedWordReencodes := fun e _ h =>
  match e with
  | .command _ => encode_of_decodeCommand h
  | .micro _ => encode_of_decodeMicro h

/-- Settles O3: the opcode is the word divided by 256, and the words below 96 are those that SEQ can be at. -/
theorem wordsThatDecode : Obligations.WordsThatDecode := by
  refine ⟨fun w => ?_, fun u => ?_⟩
  · split
    · next h => exact decodeCommand_of_legal h
    · next h =>
      rw [decodeCommand_of_illegal h, ← cmdOp_toNat, BitVec.ofNat_toNat, BitVec.setWidth_eq]
  · split
    · next h =>
      obtain ⟨q, rfl⟩ := exists_eq_seqWord h
      exact ⟨_, decodeMicro_seqWord q⟩
    · next h => exact decodeMicro_of_ge (by omega)

/-- A legal command word by its opcode and its operand (R51). -/
theorem exists_wellFormed_iff (w : CmdWord) :
    (∃ i, decodeCommand w = .ok i ∧ i.wellFormed = true) ↔
      (cmdOp w = 0x01 ∧ cmdArg w = 0) ∨ cmdOp w = 0x02 ∨ (cmdOp w = 0x03 ∧ cmdArg w = 0) ∨
      (cmdOp w = 0x04 ∧ (cmdArg w).toNat < 32) ∨ (cmdOp w = 0x05 ∧ (cmdArg w).toNat < 2) := by
  simp [decodeCommand_eq_ok_iff, or_and_right, exists_or, and_assoc, Instr.wellFormed]

/-- Settles O4: the legal opcodes and operands, as numbers. -/
theorem legalCommandWords : Obligations.LegalCommandWords := by
  intro w
  have hop := cmdOp_toNat w
  have harg := cmdArg_toNat w
  rw [exists_wellFormed_iff]
  bv_omega

/-- Settles O5, by running the decoder on the nine words. -/
theorem sampleWordsDecode : Obligations.SampleWordsDecode := by
  unfold Obligations.SampleWordsDecode
  decide

end Sys2Proof.Proofs
end

section
namespace Sys2Proof.Proofs
open Sys2Proof Sys2Proof.Machine

/-! ## Steps at rest -/

/-- Settles O6: the state in which the word is taken is that of `accept`. -/
theorem stepRunsPresentedCommand : Obligations.StepRunsPresentedCommand := fun _ _ _ ⟨ha, hi⟩ =>
  ⟨fun _ hd => step_of_command ha hi hd, fun _ hd => step_of_illegal ha hi hd⟩

/-- Settles O11: with nothing presented a step only clears the ports. -/
theorem idleStepHoldsState : Obligations.IdleStepHoldsState := fun _ ha hi => step_of_idle ha hi

/-- A command that ran from `s` to `t` is over: it has responded, no word was taken, and the block is ready. -/
def Completed (s t : State) : Prop := t.rsp.isSome = true ∧ t.input = s.input ∧ t.activity = .rest

theorem completed_raiseFault {s : State} (c : Cause) (ha : s.activity = .rest) : Completed s (raiseFault c s) := by
  simp [Completed, ha]

theorem completed_respond {s t : State} (f : Bool) (d : Byte) (hi : t.input = s.input) (ha : t.activity = .rest) :
    Completed s (respond f d t) :=
  ⟨rfl, hi, ha⟩

/-- The end of a command that included a PERMUTE. -/
theorem completed_finishCommand_absorbBlk (c : Caller) (blk : Block) {s t : State} (hi : t.input = s.input) :
    Completed s (finishCommand c (absorbBlk c blk t)) := by
  simp [Completed, absorbBlk_eq, hi]

theorem completed_absorbBody {s : State} (b : Byte) (ha : s.activity = .rest) : Completed s (absorbBody b s) := by
  by_cases hlast : s.off = 135
  · rw [absorbBody_of_eq hlast]
    exact completed_finishCommand_absorbBlk .absorb _ rfl
  · rw [absorbBody_of_ne hlast]
    exact completed_respond _ _ rfl ha

theorem completed_exec_command {w : CmdWord} {i : Instr} {s t : State} (hd : decodeCommand w = .ok i)
    (he : exec i s = .next t) (ha : s.activity = .rest) : Completed s t := by
  obtain ⟨c, rfl⟩ | ⟨-, rfl⟩ | ⟨b, -, -, rfl⟩ | ⟨-, -, rfl⟩ | ⟨_, k, -, -, -, rfl⟩ | ⟨_, k, -, -, rfl⟩ :=
    exec_command_cases hd he
  · exact completed_raiseFault c ha
  · exact completed_respond _ _ rfl ha
  · exact completed_absorbBody b ha
  · exact completed_finishCommand_absorbBlk .final _ rfl
  · exact completed_respond _ _ rfl ha
  · exact completed_respond _ _ rfl ha

/-- The step of an offered word is a completed command. -/
theorem step_of_offered {s : State} {w : CmdWord} {rest : List HostEvent} (h : s.offered w rest) :
    ∃ t, step s = .next t ∧ Completed (s.taken rest) t := by
  obtain ⟨ha, hi⟩ := h
  rcases hd : decodeCommand w with e | i
  · exact ⟨_, step_of_illegal ha hi hd, completed_raiseFault .illop ha⟩
  · obtain ⟨t, ht⟩ := exec_next i (s.taken rest)
    exact ⟨t, (step_of_command ha hi hd).trans ht, completed_exec_command hd ht ha⟩

/-- Settles O10: the word is illegal and faults, or its command faults or runs its body; each completes the command. -/
theorem commandCompletesWithOneResponse : Obligations.CommandCompletesWithOneResponse := by
  intro s w rest h
  obtain ⟨t, hstep, hrsp, hinput, hready⟩ := step_of_offered h
  obtain ⟨r, hr⟩ := Option.isSome_iff_exists.mp hrsp
  exact ⟨t, r, hstep, hr, hinput, by simp [State.cmdReady, hready]⟩

/-! ## The sequencer (R76) -/

/-- SEQ comes back to (0, 0) from (23, IOTA) and from nowhere else. -/
theorem next_eq_start_iff (q : Sequencer) : q.next = .start ↔ q = ⟨23, .iota⟩ := by
  obtain ⟨r, p⟩ := q
  cases p <;> decide +revert

theorem seqWord_next_toNat {q : Sequencer} (h : (seqWord q).toNat < 95) :
    (seqWord q.next).toNat = (seqWord q).toNat + 1 := by
  obtain ⟨r, p⟩ := q
  rw [seqWord_toNat] at h
  rw [seqWord_toNat, seqWord_toNat]
  cases p with
  | theta | rhopi | chi => rfl
  | iota =>
    have hr : r.val < 23 := by simp [Stp.code] at h; omega
    simp [Sequencer.next, hr, Stp.code]
    omega

theorem next_ne_start_of_lt {q : Sequencer} (h : (seqWord q).toNat < 95) : q.next ≠ .start := by
  rw [Ne, next_eq_start_iff]
  rintro rfl
  exact absurd h (by decide)

/-! ## Steps inside a PERMUTE -/

theorem settle_microOp_activity (c : Caller) (q : Sequencer) (s : State) :
    (settle c (microOp q s)).activity = if q.next = .start then .rest else s.activity := by
  rw [microOp_eq]
  by_cases hq : q.next = .start
  · rw [settle_of_eq hq, finishCommand_activity, if_pos hq]
  · rw [settle_of_ne hq, if_neg hq]
    rfl

/-- Settles O7: the word decodes to the instruction SEQ is at. -/
theorem stepRunsSequencerMicroOp : Obligations.StepRunsSequencerMicroOp := by
  intro s c i ha hi hd
  obtain rfl : s.seq.instr = i := Except.ok.inj ((decodeMicro_seqWord s.seq).symm.trans hd)
  refine ⟨_, _, exec_seqInstr s.seq (clearOutputs s), step_permuting ha hi, rfl, ?_⟩
  rw [← next_eq_start_iff, State.cmdReady, settle_microOp_activity]
  by_cases hq : s.seq.next = .start <;> simp [hq, ha]

/-- The second state differs from the first by the work of the engine only: the lanes, SEQ and the events; there is no
response. -/
def DifferInEngine (s t : State) : Prop := t = { s with lanes := t.lanes, seq := t.seq, rsp := none, tap := t.tap }

theorem DifferInEngine.trans {s t u : State} (hst : DifferInEngine s t) (htu : DifferInEngine t u) :
    DifferInEngine s u := by
  unfold DifferInEngine at *
  rw [htu, hst]

/-- Before the last micro-operation a step only moves the engine on to the next word. -/
theorem step_of_seqWord_lt {s : State} {c : Caller} (ha : s.activity = .permuting c) (hi : s.noReset)
    (hlt : (seqWord s.seq).toNat < 95) :
    ∃ t, step s = .next t ∧ DifferInEngine s t ∧ (seqWord t.seq).toNat = (seqWord s.seq).toNat + 1 := by
  refine ⟨_, step_permuting ha hi, ?_⟩
  rw [microOp_eq, settle_of_ne (next_ne_start_of_lt hlt)]
  exact ⟨rfl, seqWord_next_toNat hlt⟩

/-- `k + 1` steps that stay before the end of the PERMUTE. -/
theorem run_of_seqWord_le (k : Nat) {s : State} {c : Caller} (ha : s.activity = .permuting c) (hi : s.noReset)
    (hle : (seqWord s.seq).toNat + (k + 1) ≤ 95) :
    ∃ t, run (k + 1) s = .next t ∧ DifferInEngine s t ∧ (seqWord t.seq).toNat = (seqWord s.seq).toNat + (k + 1) := by
  induction k generalizing s with
  | zero =>
    obtain ⟨t, hstep, hst, hword⟩ := step_of_seqWord_lt ha hi (by omega)
    exact ⟨t, run_succ hstep, hst, hword⟩
  | succ k ih =>
    obtain ⟨t, hstep, hst, hword⟩ := step_of_seqWord_lt ha hi (by omega)
    have hact : t.activity = .permuting c := by rw [hst]; exact ha
    have hinput : t.noReset := by rw [hst]; exact hi
    obtain ⟨u, hrun, htu, hword'⟩ := ih hact hinput (by omega)
    exact ⟨u, (run_succ hstep).trans hrun, hst.trans htu, by omega⟩

/-- Settles O56: SEQ counts from word 0, and what the engine does not work on stays as it is. -/
theorem permuteIsNotInterrupted : Obligations.PermuteIsNotInterrupted := by
  intro s c k ha hq hi hpos hle
  have hstart : (seqWord s.seq).toNat = 0 := by rw [hq]; rfl
  obtain ⟨j, rfl⟩ : ∃ j, k = j + 1 := ⟨k - 1, by omega⟩
  obtain ⟨t, hrun, hst, hword⟩ := run_of_seqWord_le j ha hi (by omega)
  refine ⟨t, hrun, by rw [hstart, Nat.zero_add] at hword; exact hword, ?_⟩
  rw [hst]
  simp [State.cmdReady, ha]

end Sys2Proof.Proofs
end

section
namespace Sys2Proof.Proofs
open Sys2Proof Sys2Proof.Machine

/-! ## The assembler (R58, R59) -/

theorem map_asmWord (op bound n : Nat) :
    (asmWord op bound n).map ([·]) = if n < bound then some [BitVec.ofNat 16 (256 * op + n)] else none := by
  unfold asmWord
  split <;> rfl

/-- Settles O57: an operand below its bound gives the word of its opcode and the operand. -/
theorem assemblerWords : Obligations.AssemblerWords := by
  refine ⟨rfl, rfl, fun n => ?_, fun n => ?_, fun n => ?_, fun n => ?_⟩
  · simp [assembleLine, map_asmWord, Nat.lt_succ_iff]
  · simp [assembleLine, map_asmWord, Nat.lt_succ_iff]
  · simp [assembleLine, map_asmWord, Nat.le_one_iff_eq_zero_or_eq_one]
  · simp [assembleLine, map_asmWord, Nat.lt_succ_iff]

theorem asmUpdate_cons (b : Nat) (bs : List Nat) :
    asmUpdate (b :: bs) = (asmWord 0x02 256 b).bind fun w => (asmUpdate bs).map (w :: ·) := by
  rw [asmUpdate]
  cases asmWord 0x02 256 b <;> cases asmUpdate bs <;> rfl

theorem assemble_cons (l : AsmLine) (ls : List AsmLine) :
    assemble (l :: ls) = (assembleLine l).bind fun ws => (assemble ls).map (ws ++ ·) := by
  rw [assemble]
  cases assembleLine l <;> cases assemble ls <;> rfl

theorem asmUpdate_append (xs ys : List Nat) :
    asmUpdate (xs ++ ys) = (asmUpdate xs).bind fun ws => (asmUpdate ys).map (ws ++ ·) := by
  induction xs with
  | nil => simp [asmUpdate]
  | cons x xs ih =>
    rw [List.cons_append, asmUpdate_cons, asmUpdate_cons, ih]
    cases asmWord 0x02 256 x <;> cases asmUpdate xs <;> simp [Function.comp_def]

theorem asmUpdate_length {bs : List Nat} {ws : List CmdWord} (h : asmUpdate bs = some ws) : ws.length = bs.length := by
  induction bs generalizing ws with
  | nil => cases h; rfl
  | cons b bs ih =>
    simp only [asmUpdate_cons, Option.bind_eq_some_iff, Option.map_eq_some_iff] at h
    obtain ⟨w, -, us, hus, rfl⟩ := h
    simp [ih hus]

/-- Settles O58: the words of bytes are those of their parts in order, one word per byte. -/
theorem chunksAssembleAlike : Obligations.ChunksAssembleAlike := by
  refine ⟨fun xs ys ls => ?_, fun bs ls => ?_, fun bs ws h => ?_⟩
  · simp only [assemble_cons, assembleLine, asmUpdate_append]
    cases asmUpdate xs <;> cases asmUpdate ys <;> simp [Function.comp_def]
  · simp only [assemble_cons, assembleLine]
    cases asmUpdate bs <;> simp [Function.comp_def]
  · obtain ⟨us, hus, rfl⟩ := Option.map_eq_some_iff.mp h
    simp [asmUpdate_length hus, asmDigest]

end Sys2Proof.Proofs
end

section
namespace Sys2Proof.Proofs
open Sys2Proof Sys2Proof.Machine

/-! ## Steps answer next states -/

/-- Settles O9, by what the next step is: a reset, a micro-operation, an accepted word, or nothing. -/
theorem everyStepAnswersNext : Obligations.EveryStepAnswersNext := by
  intro s
  obtain ⟨rest, hi, -⟩ | ⟨c, ha, hi, -⟩ | ⟨w, rest, ha, hi, -⟩ | ⟨ha, hi, -⟩ := fetch_cases s
  · exact ⟨_, step_of_reset hi⟩
  · exact ⟨_, step_permuting ha hi⟩
  · obtain ⟨t, hstep, -⟩ := step_of_offered ⟨ha, hi⟩
    exact ⟨t, hstep⟩
  · exact ⟨_, step_of_idle ha hi⟩

end Sys2Proof.Proofs
end

section
namespace Sys2Proof.Proofs
open Sys2Proof Sys2Proof.Machine

/-! ## The sequencer on its own (R76) -/

theorem next_of_iota_of_lt {q : Sequencer} (hp : q.stp = .iota) (hr : q.rnd.val < 23) :
    q.next = ⟨⟨q.rnd.val + 1, by omega⟩, .theta⟩ := by
  simp [Sequencer.next, hp, hr]

theorem next_of_iota_last {q : Sequencer} (hp : q.stp = .iota) (hr : ¬ q.rnd.val < 23) : q.next = .start := by
  simp [Sequencer.next, hp, hr]

theorem stp_eq_iota_iff (p : Stp) : p.code.toNat = 3 ↔ p = .iota := by
  cases p <;> decide

/-- Below STP 3 the round stays and STP is one more. -/
theorem next_of_ne_iota {q : Sequencer} (hp : q.stp ≠ .iota) :
    q.next.rnd = q.rnd ∧ q.next.stp.code.toNat = q.stp.code.toNat + 1 := by
  obtain ⟨r, p⟩ := q
  cases p with
  | theta | rhopi | chi => exact ⟨rfl, rfl⟩
  | iota => exact absurd rfl hp

/-- Every word but the last, (23, IOTA), is below 95. -/
theorem seqWord_toNat_lt_of_ne {q : Sequencer} (h : q ≠ ⟨23, .iota⟩) : (seqWord q).toNat < 95 := by
  rw [seqWord_toNat]
  obtain ⟨r, p⟩ := q
  cases p with
  | theta | rhopi | chi => simp [Stp.code]; omega
  | iota =>
    have hr : r ≠ 23 := fun hr => h (by rw [hr])
    simp [Stp.code]; omega

/-- As words the sequencer counts modulo 96. -/
theorem seqWord_next_toNat_mod (q : Sequencer) : (seqWord q.next).toNat = ((seqWord q).toNat + 1) % 96 := by
  by_cases hlast : q = ⟨23, .iota⟩
  · rw [hlast]; rfl
  · have hlt := seqWord_toNat_lt_of_ne hlast
    rw [seqWord_next_toNat hlt, Nat.mod_eq_of_lt (by omega)]

/-! ## Micro-operations in a row -/

/-- The meaning of the micro-operation at `q`, in closed form. -/
theorem exec_seqInstr_eq (q : Sequencer) (s : State) :
    exec q.instr s = .next (engineResult (microLanes q s.lanes) q.next
      [⟨q.stp.tapKind, q.rnd, microLanes q s.lanes⟩] s) := by
  rw [exec_seqInstr, microOp_eq]

@[simp] theorem microOp_seq (q : Sequencer) (s : State) : (microOp q s).seq = q.next := by
  rw [microOp_eq, engineResult_seq]

/-- Up to the end of the PERMUTE each micro-operation adds one to the word SEQ is at, whatever the lanes hold. -/
theorem microRun_seqWord (k : Nat) {s : State} (h : (seqWord s.seq).toNat + k ≤ 95) :
    (seqWord (microRun k s).seq).toNat = (seqWord s.seq).toNat + k := by
  induction k generalizing s with
  | zero => rfl
  | succ k ih =>
    have hnext : (seqWord (microOp s.seq s).seq).toNat = (seqWord s.seq).toNat + 1 := by
      rw [microOp_seq, seqWord_next_toNat (by omega)]
    rw [microRun, ih (by omega), hnext]
    omega

/-- SEQ is back at (0, 0) after none of the first 95 micro-operations (R76). -/
theorem microRun_seq_ne_start {k : Nat} {s : State} (hq : s.seq = .start) (hpos : 1 ≤ k) (hle : k ≤ 95) :
    (microRun k s).seq ≠ .start := by
  intro hback
  have hzero : (seqWord .start).toNat = 0 := rfl
  have hcount : (seqWord (microRun k s).seq).toNat = (seqWord s.seq).toNat + k :=
    microRun_seqWord k (by rw [hq, hzero]; omega)
  rw [hback, hq, hzero] at hcount
  omega

@[simp] theorem permute_seq (s : State) : (permute s).seq = .start := by
  rw [permute_eq, engineResult_seq]

/-- Settles O17: the words count modulo 96, `exec` moves SEQ to the next place, and a PERMUTE ends at (0, 0) and comes
there no earlier. -/
theorem sequencerAdvance : Obligations.SequencerAdvance := by
  refine ⟨seqWord_next_toNat_mod,
    fun s => ⟨_, exec_seqInstr_eq s.seq s, fun hp => ?_, fun hp hr => ?_, fun hp hr => ?_⟩,
    fun s => ⟨rfl, permute_seq s, fun _ => microRun_seq_ne_start rfl⟩⟩
  · exact next_of_ne_iota fun hiota => by simp [hiota, Stp.code] at hp
  · rw [engineResult_seq, next_of_iota_of_lt ((stp_eq_iota_iff _).mp hp) hr]
    exact ⟨rfl, rfl⟩
  · rw [engineResult_seq, next_of_iota_last ((stp_eq_iota_iff _).mp hp) (by omega)]
    exact ⟨rfl, rfl⟩

end Sys2Proof.Proofs
end

section
namespace Sys2Proof.Proofs
open Sys2Proof Sys2Proof.Machine

/-! ## The four steps on the lanes (R70 to R73) -/

/-- RHOPI brings the lane of (x, y), rotated, to (y, 2x + 3y). -/
theorem rhopi_lane_dest (a : Lanes) (x y : Fin 5) :
    (rhopi a).lane y (2 * x + 3 * y) = rotl (a.lane x y) (RHO x y) := by
  have hsource : ∀ x y : Fin 5, y + 3 * (2 * x + 3 * y) = x := by decide
  rw [rhopi_lane, hsource]

/-- Settles O12: the closed form of the meaning, with the lanes of THETA. -/
theorem thetaResult : Obligations.ThetaResult := fun r s =>
  ⟨rfl, _, _, _, exec_seqInstr_eq ⟨r, .theta⟩ s, fun _ => ⟨rfl, rfl⟩, fun x y => by
    rw [← show (1 : Fin 64).val = 1 from rfl, ← rotl_eq_rotateLeft]
    exact theta_lane s.lanes x y⟩

/-- Settles O13: the closed form of the meaning, with the lanes of RHOPI read at the destination. -/
theorem rhopiResult : Obligations.RhopiResult := fun r s =>
  ⟨rfl, _, _, _, exec_seqInstr_eq ⟨r, .rhopi⟩ s, fun _ => ⟨rfl, rfl⟩, fun x y => by
    rw [← rotl_eq_rotateLeft]
    exact rhopi_lane_dest s.lanes x y⟩

/-- Settles O14: the closed form of the meaning, with the lanes of CHI. -/
theorem chiResult : Obligations.ChiResult := fun r s =>
  ⟨rfl, _, _, _, exec_seqInstr_eq ⟨r, .chi⟩ s, fun _ => ⟨rfl, rfl⟩, chi_lane s.lanes⟩

/-- IOTA is followed by THETA of the next round, or of round 0 after round 23 (R76). -/
theorem next_of_iota (r : Fin 24) : (Sequencer.next ⟨r, .iota⟩).stp = .theta ∧
    (Sequencer.next ⟨r, .iota⟩).rnd.val = if r.val < 23 then r.val + 1 else 0 := by
  by_cases hr : r.val < 23
  · rw [next_of_iota_of_lt rfl hr, if_pos hr]
    exact ⟨rfl, rfl⟩
  · rw [next_of_iota_last rfl hr, if_neg hr]
    exact ⟨rfl, rfl⟩

/-- Settles O15: the closed form of the meaning, with the lanes of IOTA; SEQ goes on to the next round. -/
theorem iotaResult : Obligations.IotaResult := by
  intro r s
  obtain ⟨hstp, hrnd⟩ := next_of_iota r
  refine ⟨rfl, _, _, _, exec_seqInstr_eq ⟨r, .iota⟩ s, fun _ => ⟨hstp, hrnd, rfl⟩, fun x y => ?_⟩
  refine (iota_lane r s.lanes x y).trans (if_ctx_congr Iff.rfl ?_ fun _ => rfl)
  rintro ⟨rfl, rfl⟩
  rfl

/-- Settles O18, by running the engine twice. -/
theorem permuteKnownAnswers : Obligations.PermuteKnownAnswers := by
  unfold Obligations.PermuteKnownAnswers
  decide +kernel

/-! ## RHOPI, CHI and IOTA lose nothing (R82) -/

/-- Every bit of a lane can be read back from the rotated lane. -/
theorem rotl_injective (n : Fin 64) : Function.Injective (rotl · n) := fun v w (h : rotl v n = rotl w n) =>
  BitVec.eq_of_getLsbD_eq fun b hb => by
    rw [← getLsbD_rotl_add_mod v n ⟨b, hb⟩, h, getLsbD_rotl_add_mod w n ⟨b, hb⟩]

theorem rhopi_injective : Function.Injective rhopi := fun a b h =>
  Lanes.ext_lane fun x y => rotl_injective (RHO x y) (by
    simpa only [rhopi_lane_dest] using congrArg (Lanes.lane · y (2 * x + 3 * y)) h)

/-- What undoes CHI, on the lanes of one row. -/
def chiInverse (b : Lanes) : Lanes := .ofGrid fun x y =>
  b.lane x y ^^^ (~~~(b.lane (x + 1) y) &&& (b.lane (x + 2) y ^^^ (~~~(b.lane (x + 3) y) &&& b.lane (x + 4) y)))

/-- The lanes of a row after CHI give back the first of them. -/
theorem chi_row_inverse (v0 v1 v2 v3 v4 : Lane) :
    (v0 ^^^ (~~~v1 &&& v2)) ^^^ (~~~(v1 ^^^ (~~~v2 &&& v3)) &&&
      ((v2 ^^^ (~~~v3 &&& v4)) ^^^ (~~~(v3 ^^^ (~~~v4 &&& v0)) &&& (v4 ^^^ (~~~v0 &&& v1))))) = v0 := by
  have hbits : ∀ a b c d e : Bool, ((a ^^ (!b && c)) ^^ (!(b ^^ (!c && d)) &&
      ((c ^^ (!d && e)) ^^ (!(d ^^ (!e && a)) && (e ^^ (!a && b)))))) = a := by decide
  ext i hi
  simpa using hbits v0[i] v1[i] v2[i] v3[i] v4[i]

theorem chiInverse_chi : Function.LeftInverse chiInverse chi := fun a => by
  have hwrap : ∀ x : Fin 5, x + 1 + 1 = x + 2 ∧ x + 1 + 2 = x + 3 ∧ x + 2 + 1 = x + 3 ∧ x + 2 + 2 = x + 4 ∧
      x + 3 + 1 = x + 4 ∧ x + 3 + 2 = x ∧ x + 4 + 1 = x ∧ x + 4 + 2 = x + 1 := by decide
  refine Lanes.ext_lane fun x y => ?_
  simp only [chiInverse, Lanes.lane_ofGrid, chi_lane, hwrap]
  exact chi_row_inverse _ _ _ _ _

/-- IOTA XORs a constant, so a second IOTA undoes it. -/
theorem iota_involutive (r : Fin 24) : Function.Involutive (iota r) := fun a =>
  Lanes.ext_lane fun x y => by
    by_cases h : x = 0 ∧ y = 0 <;> simp [h]

/-- Settles O22: rotations are injective, and CHI and IOTA have left inverses. -/
theorem rhopiChiIotaInjective : Obligations.RhopiChiIotaInjective := fun _ _ =>
  ⟨fun h => rhopi_injective h, fun h => chiInverse_chi.injective h, fun r h => (iota_involutive r).injective h⟩

end Sys2Proof.Proofs
end

section
namespace Sys2Proof.Proofs
open Sys2Proof Sys2Proof.Machine

/-! ## ABSORB and FINAL in phase ABSORB (R122, R123) -/

theorem exec_absorb_of_phase (b : Byte) {s : State} (hp : s.phase = .absorb) :
    exec (.absorb b) s = .next (absorbBody b s) := by
  rw [exec_absorb, byteOperand_ok]
  exact carryOut_ok (by simp [inAbsorb, hp])

theorem exec_final_of_phase {s : State} (hp : s.phase = .absorb) : exec (.final 0) s = .next (finalBody () s) := by
  rw [exec_final, noOperand_zero]
  exact carryOut_ok (by simp [inAbsorb, hp])

/-- The byte that fills the buffer is its last (R100). -/
theorem bufPut_getElem_of_full (b : Byte) {s : State} (hoff : s.off = 135) (k : Fin 136) :
    (bufPut b s).buf[k.val] = if k.val = 135 then b else s.buf[k.val] := by
  have hlast : s.off.toNat = 135 := by rw [hoff]; rfl
  rw [bufPut_buf, hlast, Vector.getElem_setIfInBounds]
  simp only [eq_comm (a := 135)]

/-- A whole ABSORB that absorbs a block, in closed form. -/
theorem finishCommand_absorb_absorbBlk_eq (blk : Block) (s : State) :
    finishCommand .absorb (absorbBlk .absorb blk s) =
      respond false 0x00 { engineResult (absorbLanes s.lanes blk) .start (blockEvents blk s.lanes) s with
        off := 0, activity := .rest } := by
  rw [absorbBlk_eq]
  rfl

/-- Settles O31: the byte fills the buffer, so the command absorbs the block it now holds. -/
theorem absorbCompletesBlock : Obligations.AbsorbCompletesBlock := by
  intro b s hp ha hoff
  refine ⟨(bufPut b s).buf, ?_, bufPut_getElem_of_full b hoff⟩
  rw [exec_absorb_of_phase b hp, absorbBody_of_eq hoff, finishCommand_absorb_absorbBlk_eq, ha]
  rfl

end Sys2Proof.Proofs
end

section
namespace Sys2Proof.Proofs
open Sys2Proof Sys2Proof.Machine

/-! ## The kinds and rounds of the trace events (R152) -/

/-- The events without their lanes. -/
def tapLabels (es : List TapEvent) : List (TapKind × Fin 24) := es.map fun e => (e.kind, e.rnd)

@[simp] theorem tapLabels_nil : tapLabels [] = [] := rfl

@[simp] theorem tapLabels_cons (e : TapEvent) (es : List TapEvent) :
    tapLabels (e :: es) = (e.kind, e.rnd) :: tapLabels es := rfl

@[simp] theorem tapLabels_append (es es' : List TapEvent) : tapLabels (es ++ es') = tapLabels es ++ tapLabels es' :=
  List.map_append

/-- The checkpoints of one round, in order. -/
def roundLabels (r : Fin 24) : List (TapKind × Fin 24) :=
  [(.postTheta, r), (.postRhopi, r), (.postChi, r), (.postIota, r)]

theorem tapLabels_roundsEvents (rs : List (Fin 24)) (l : Lanes) :
    tapLabels (roundsEvents rs l) = rs.flatMap roundLabels := by
  induction rs generalizing l with
  | nil => rfl
  | cons r rs ih => rw [roundsEvents, tapLabels_append, ih, List.flatMap_cons]; rfl

/-- The checkpoints of an ABSORBBLK: the post-XOR one and those of the 24 rounds (R102). -/
def blockLabels : List (TapKind × Fin 24) := (.postXor, 0) :: (List.finRange 24).flatMap roundLabels

@[simp] theorem tapLabels_blockEvents (blk : Block) (l : Lanes) : tapLabels (blockEvents blk l) = blockLabels :=
  congrArg ((TapKind.postXor, (0 : Fin 24)) :: ·) (tapLabels_roundsEvents _ _)

/-! ## The trace of each command -/

theorem absorbBody_tap_of_full (b : Byte) {s : State} (ht : s.hasTap = true) (hoff : s.off = 135) :
    (absorbBody b s).tap = s.tap ++ blockEvents (bufPut b s).buf s.lanes := by
  rw [absorbBody_of_eq hoff, absorbBlk_eq]
  simp [ht]

theorem finalBody_tap {s : State} (ht : s.hasTap = true) :
    (finalBody () s).tap = s.tap ++ blockEvents (padBlk s.buf s.off) s.lanes ++
      [⟨.finalState, 0, absorbLanes s.lanes (padBlk s.buf s.off)⟩] := by
  rw [finalBody, absorbBlk_eq]
  simp [ht]

/-- A command whose body emits nothing emits nothing, whether it faults or not. -/
theorem carryOut_tap {α : Type} (operand : Except Cause α) (allowed : Phase → Bool) {body : α → State → State}
    {s : State} (hbody : ∀ a, (body a s).tap = s.tap) :
    ∃ t, carryOut operand allowed body s = .next t ∧ t.tap = s.tap := by
  obtain ⟨t, ht⟩ := carryOut_next operand allowed body s
  refine ⟨t, ht, ?_⟩
  obtain ⟨c, -, rfl⟩ | ⟨a, -, -, rfl⟩ | ⟨a, -, -, rfl⟩ := carryOut_cases ht
  · exact raiseFault_tap c s
  · exact raiseFault_tap .badphase s
  · exact hbody a

/-- Settles O49: the events of the two commands that absorb a block are those of ABSORBBLK, and FINAL adds one; the
other bodies emit none. -/
theorem tapEventsOfCommands : Obligations.TapEventsOfCommands := by
  intro s hp ht hnone
  refine ⟨fun b hoff => ⟨_, exec_absorb_of_phase b hp, ?_⟩, ⟨_, exec_final_of_phase hp, ?_, ?_⟩,
    fun b hle => ⟨_, exec_absorb_of_phase b hp, ?_⟩, fun a => ?_, fun i => ⟨?_, ?_⟩⟩
  · rw [absorbBody_tap_of_full b ht hoff, hnone, List.nil_append]
    exact tapLabels_blockEvents _ _
  · simp [finalBody_tap ht, hnone, blockEvents_length]
  · rw [finalBody_tap ht, hnone, List.nil_append]
    exact (tapLabels_append _ _).trans (by rw [tapLabels_blockEvents]; rfl)
  · rw [absorbBody_of_ne fun hoff => by simp [hoff] at hle]
    exact hnone
  · rw [exec_init, ← hnone]
    exact carryOut_tap _ _ fun _ => rfl
  · rw [exec_rdig, ← hnone]
    exact carryOut_tap _ _ fun _ => rfl
  · rw [exec_rdsr, ← hnone]
    exact carryOut_tap _ _ fun _ => rfl

end Sys2Proof.Proofs
end

section
namespace Sys2Proof.Proofs
open Sys2Proof Sys2Proof.Machine

/-! ## Control without data (R170) -/

/-- The two states agree on all but the lanes, BUF, the data of the response and the lanes of the events. -/
structure SameControl (s t : State) : Prop where
  off : t.off = s.off
  phase : t.phase = s.phase
  ecode : t.ecode = s.ecode
  seq : t.seq = s.seq
  activity : t.activity = s.activity
  hasTap : t.hasTap = s.hasTap
  input : t.input = s.input
  fault : t.rsp.map Response.fault = s.rsp.map Response.fault
  labels : tapLabels t.tap = tapLabels s.tap

theorem sameControl_withData (l : Lanes) (buf : Block) (s : State) : SameControl s (withData l buf s) :=
  ⟨rfl, rfl, rfl, rfl, rfl, rfl, rfl, rfl, rfl⟩

theorem SameControl.respond {s t : State} (f : Bool) (d d' : Byte) (h : SameControl s t) :
    SameControl (respond f d s) (respond f d' t) :=
  { h with fault := rfl }

theorem SameControl.clearOutputs {s t : State} (h : SameControl s t) : SameControl (clearOutputs s) (clearOutputs t) :=
  { h with fault := rfl, labels := rfl }

theorem SameControl.withInput {s t : State} (rest : List HostEvent) (h : SameControl s t) :
    SameControl { s with input := rest } { t with input := rest } :=
  { h with input := rfl }

theorem SameControl.raiseFault {s t : State} (c : Cause) (h : SameControl s t) :
    SameControl (raiseFault c s) (raiseFault c t) := by
  unfold Machine.raiseFault
  rw [h.phase]
  split
  · exact h.respond ..
  · exact SameControl.respond _ _ _ { h with ecode := rfl, phase := rfl }

/-- The work of the engine: SEQ and the labels of the events do not depend on the lanes (R76). -/
theorem SameControl.engineResult {s t : State} (l l' : Lanes) (q : Sequencer) {es es' : List TapEvent}
    (hes : tapLabels es' = tapLabels es) (h : SameControl s t) :
    SameControl (engineResult l q es s) (engineResult l' q es' t) :=
  { h with seq := rfl, labels := by by_cases ht : s.hasTap = true <;> simp [h.hasTap, ht, h.labels, hes] }

/-- A trace event alone is an engine result that keeps the lanes and SEQ. -/
theorem emitTap_eq (k : TapKind) (r : Fin 24) (s : State) :
    emitTap k r s = engineResult s.lanes s.seq [⟨k, r, s.lanes⟩] s := by
  unfold emitTap engineResult
  split <;> rfl

theorem SameControl.emitTap {s t : State} (k : TapKind) (r : Fin 24) (h : SameControl s t) :
    SameControl (emitTap k r s) (emitTap k r t) := by
  rw [emitTap_eq, emitTap_eq, h.seq]
  exact h.engineResult _ _ _ rfl

theorem SameControl.microOp {s t : State} (q : Sequencer) (h : SameControl s t) :
    SameControl (microOp q s) (microOp q t) := by
  rw [microOp_eq, microOp_eq]
  exact h.engineResult _ _ _ rfl

theorem SameControl.absorbBlk {s t : State} (c : Caller) (blk blk' : Block) (h : SameControl s t) :
    SameControl (absorbBlk c blk s) (absorbBlk c blk' t) := by
  rw [absorbBlk_eq, absorbBlk_eq]
  have hlabels : tapLabels (blockEvents blk' t.lanes) = tapLabels (blockEvents blk s.lanes) := by simp
  exact { h.engineResult (absorbLanes s.lanes blk) (absorbLanes t.lanes blk') .start hlabels with activity := rfl }

theorem SameControl.finishCommand {s t : State} (c : Caller) (h : SameControl s t) :
    SameControl (finishCommand c s) (finishCommand c t) := by
  cases c with
  | absorb => exact SameControl.respond _ _ _ { h with off := rfl, activity := rfl }
  | final => exact SameControl.respond _ _ _ { h.emitTap .finalState 0 with off := rfl, phase := rfl, activity := rfl }

theorem SameControl.settle {s t : State} (c : Caller) (h : SameControl s t) :
    SameControl (settle c s) (settle c t) := by
  unfold Machine.settle
  rw [h.seq]
  split
  · exact h.finishCommand c
  · exact h

theorem SameControl.absorbBody {s t : State} (b : Byte) (h : SameControl s t) :
    SameControl (absorbBody b s) (absorbBody b t) := by
  have hput : SameControl (bufPut b s) (bufPut b t) := { h with off := congrArg (· + 1) h.off }
  unfold Machine.absorbBody
  rw [hput.off]
  split
  · exact (hput.absorbBlk ..).finishCommand _
  · exact hput.respond ..

/-- Both answers are next states, and these agree in control. -/
def AnswersSameControl (a a' : Result) : Prop :=
  ∃ t t', a = .next t ∧ a' = .next t' ∧ SameControl t t'

theorem answersSameControl_next {t t' : State} (h : SameControl t t') : AnswersSameControl (.next t) (.next t') :=
  ⟨t, t', rfl, rfl, h⟩

/-- The checks of a command (R120) read PHASE and the operand only. -/
theorem answersSameControl_carryOut {α : Type} {operand : Except Cause α} {allowed : Phase → Bool}
    {body : α → State → State} {s t : State} (h : SameControl s t)
    (hbody : ∀ a, SameControl (body a s) (body a t)) :
    AnswersSameControl (carryOut operand allowed body s) (carryOut operand allowed body t) := by
  cases operand with
  | error c => exact answersSameControl_next (h.raiseFault c)
  | ok a =>
    simp only [carryOut, h.phase]
    split
    · exact answersSameControl_next (hbody a)
    · exact answersSameControl_next (h.raiseFault .badphase)

theorem answersSameControl_exec_command {w : CmdWord} {i : Instr} {s t : State} (hd : decodeCommand w = .ok i)
    (h : SameControl s t) : AnswersSameControl (exec i s) (exec i t) := by
  rcases decodeCommand_cases hd with rfl | rfl | rfl | rfl | rfl
  · rw [exec_init, exec_init]
    exact answersSameControl_carryOut h fun _ =>
      SameControl.respond _ _ _ { h with off := rfl, phase := rfl, ecode := rfl }
  · rw [exec_absorb, exec_absorb]
    exact answersSameControl_carryOut h fun b => h.absorbBody b
  · rw [exec_final, exec_final]
    exact answersSameControl_carryOut h fun _ => (h.absorbBlk ..).finishCommand .final
  · rw [exec_rdig, exec_rdig]
    exact answersSameControl_carryOut h fun _ => h.respond ..
  · rw [exec_rdsr, exec_rdsr]
    exact answersSameControl_carryOut h fun _ => h.respond ..

/-- What the host presents and the command in progress decide which step is taken; they are the same in both states. -/
theorem answersSameControl_step {s t : State} (h : SameControl s t) : AnswersSameControl (step s) (step t) := by
  obtain ⟨rest, hi, -⟩ | ⟨c, ha, hi, -⟩ | ⟨w, rest, ha, hi, -⟩ | ⟨ha, hi, -⟩ := fetch_cases s
  · rw [step_of_reset hi, step_of_reset (h.input.trans hi)]
    have hreset : resetBlock rest t = resetBlock rest s := by simp only [resetBlock, h.hasTap]
    rw [hreset]
    exact answersSameControl_next (sameControl_withData _ _ _)
  · rw [step_permuting ha hi, step_permuting (h.activity.trans ha) (by rwa [h.input]), h.seq]
    exact answersSameControl_next ((h.clearOutputs.microOp _).settle c)
  · have htaken := (h.withInput rest).clearOutputs
    rcases hd : decodeCommand w with e | i
    · rw [step_of_illegal ha hi hd, step_of_illegal (h.activity.trans ha) (h.input.trans hi) hd]
      exact answersSameControl_next (htaken.raiseFault .illop)
    · rw [step_of_command ha hi hd, step_of_command (h.activity.trans ha) (h.input.trans hi) hd]
      exact answersSameControl_exec_command hd htaken
  · rw [step_of_idle ha hi, step_of_idle (h.activity.trans ha) (h.input.trans hi)]
    exact answersSameControl_next h.clearOutputs

/-- Settles O50: states that differ in the lanes and BUF agree in control, and steps keep that. -/
theorem controlIsDataIndependent : Obligations.ControlIsDataIndependent := by
  intro s t l buf hstep
  obtain ⟨u, t', hu, ht', h⟩ := answersSameControl_step (sameControl_withData l buf s)
  obtain rfl : u = t := by rw [hu] at hstep; exact Host.Outcome.next.inj hstep
  exact ⟨t', ht', h.off, h.phase, h.ecode, h.seq, h.activity, h.input, h.fault, h.labels⟩

end Sys2Proof.Proofs
end

section
namespace Sys2Proof.Proofs
open Sys2Proof Sys2Proof.Machine

/-! ## Steps of the machine against micro-operations (R76, R80) -/

/-- The second state differs from the first in the response and the events only. -/
def DifferInOutputs (s t : State) : Prop := ∃ rsp tap, t = { s with rsp := rsp, tap := tap }

theorem DifferInOutputs.seq_eq {s t : State} (h : DifferInOutputs s t) : t.seq = s.seq := by
  obtain ⟨rsp, tap, rfl⟩ := h
  rfl

@[simp] theorem microRun_activity (k : Nat) (s : State) : (microRun k s).activity = s.activity := by
  induction k generalizing s with
  | zero => rfl
  | succ k ih => rw [microRun, ih, microOp_eq, engineResult_activity]

@[simp] theorem microRun_input (k : Nat) (s : State) : (microRun k s).input = s.input := by
  induction k generalizing s with
  | zero => rfl
  | succ k ih => rw [microRun, ih, microOp_eq, engineResult_input]

/-- The last of `k + 1` micro-operations is the one SEQ is at after `k`. -/
theorem microRun_succ_last (k : Nat) (s : State) :
    microRun (k + 1) s = microOp (microRun k s).seq (microRun k s) :=
  microRun_add k 1 s

/-- A step inside a PERMUTE, from the state after `k` micro-operations but for the outputs. -/
theorem step_of_differInOutputs {m t : State} {c : Caller} (ha : m.activity = .permuting c) (hi : m.noReset)
    (h : DifferInOutputs m t) : ∃ u, step t = .next (settle c u) ∧ DifferInOutputs (microOp m.seq m) u := by
  obtain ⟨rsp, tap, rfl⟩ := h
  refine ⟨_, step_permuting ha hi, ?_⟩
  rw [microOp_eq, microOp_eq]
  exact ⟨_, _, rfl⟩

/-- Before the end of the PERMUTE `k` steps do what `k` micro-operations do, the outputs aside. -/
theorem run_eq_microRun {s : State} {c : Caller} (ha : s.activity = .permuting c) (hi : s.noReset) (hq : s.seq = .start)
    (k : Nat) (hle : k ≤ 95) : ∃ t, run k s = .next t ∧ DifferInOutputs (microRun k s) t := by
  induction k with
  | zero => exact ⟨s, rfl, s.rsp, s.tap, rfl⟩
  | succ k ih =>
    obtain ⟨t, hrun, hm⟩ := ih (by omega)
    obtain ⟨u, hstep, hu⟩ := step_of_differInOutputs (by simpa using ha) (by simpa using hi) hm
    rw [← microRun_succ_last] at hu
    have hgoesOn : u.seq ≠ .start := by
      rw [hu.seq_eq]
      exact microRun_seq_ne_start hq (by omega) hle
    rw [settle_of_ne hgoesOn] at hstep
    exact ⟨u, (run_add hrun).trans (run_succ hstep), hu⟩

/-- From SEQ = (0, 0), 96 steps do what PERMUTE does and end the command, the outputs aside. -/
theorem run_eq_permute {s : State} {c : Caller} (ha : s.activity = .permuting c) (hi : s.noReset)
    (hq : s.seq = .start) : ∃ t, run 96 s = .next (finishCommand c t) ∧ DifferInOutputs (permute s) t := by
  have hpermute : permute s = microOp (microRun 95 s).seq (microRun 95 s) := by
    rw [← microRun_succ_last, permute, ← hq]
  obtain ⟨t, hrun, hm⟩ := run_eq_microRun ha hi hq 95 le_rfl
  obtain ⟨u, hstep, hu⟩ := step_of_differInOutputs (by simpa using ha) (by simpa using hi) hm
  rw [← hpermute] at hu
  rw [settle_of_eq (hu.seq_eq.trans (permute_seq s))] at hstep
  exact ⟨u, (run_add hrun).trans (run_succ (n := 0) hstep), hu⟩

/-- The end of a command writes the response, so only the events can still differ. -/
theorem finishCommand_of_differInOutputs {s t : State} (c : Caller) (h : DifferInOutputs s t) :
    finishCommand c t = { finishCommand c s with tap := (finishCommand c t).tap } := by
  obtain ⟨rsp, tap, rfl⟩ := h
  cases c with
  | absorb => rfl
  | final => by_cases ht : s.hasTap = true <;> simp [finishCommand, emitTap, respond, ht]

/-- From the state in which its block is XORed in, 96 steps reach what the whole command answers, the events aside. -/
theorem run_beginBlock {s : State} (c : Caller) (blk : Block) (hi : s.noReset) :
    ∃ t, run 96 (beginBlock c blk s) = .next t ∧ t = { finishCommand c (absorbBlk c blk s) with tap := t.tap } := by
  obtain ⟨t, hrun, ht⟩ := run_eq_permute (beginBlock_activity c blk s) (by simpa using hi) (beginBlock_seq c blk s)
  exact ⟨_, hrun, finishCommand_of_differInOutputs c ht⟩

/-- Settles O55: both commands end in ABSORBBLK, whose micro-operations 96 steps run one by one. -/
theorem microSteppingMatchesCommand : Obligations.MicroSteppingMatchesCommand := by
  intro s hp _ hi
  refine ⟨fun _ => ?_, fun b hoff => ?_⟩
  · obtain ⟨t, hrun, ht⟩ := run_beginBlock .final (padBlk s.buf s.off) hi
    exact ⟨_, t, exec_final_of_phase hp, hrun, ht⟩
  · obtain ⟨t, hrun, ht⟩ := run_beginBlock (s := bufPut b s) .absorb (bufPut b s).buf hi
    exact ⟨_, t, exec_absorb_of_phase b hp, hrun, by rw [absorbBody_of_eq hoff]; exact ht⟩

end Sys2Proof.Proofs
end

section
namespace Sys2Proof.Proofs
open Sys2Proof Sys2Proof.Machine

/-! ## XORBLK byte by byte (R101) -/

theorem laneByte_xor (v w : Lane) (k : Fin 8) : laneByte (v ^^^ w) k = laneByte v k ^^^ laneByte w k :=
  BitVec.extractLsb'_xor

/-- Byte `k` of lane `i` of a block is its byte `8i + k`: the bytes below it are passed over one at a time. -/
theorem laneByte_blockLane (blk : Block) (i : Fin 17) (k : Fin 8) :
    laneByte (blockLane blk i) k = blk[8 * i.val + k.val] := by
  unfold laneByte blockLane
  change BitVec.extractLsb' (n := 8 + 8 + 8 + 8 + 8 + 8 + 8 + 8) _ _ _ = _
  fin_cases k <;> simp [-Nat.reduceAdd, BitVec.extractLsb'_append_eq_of_le, BitVec.extractLsb'_append_eq_right]

theorem stRead_xorBlk (blk : Block) (l : Lanes) (a : Fin 200) :
    stRead (xorBlk blk l) a = if h : a.val < 136 then stRead l a ^^^ blk[a.val] else stRead l a := by
  by_cases h : a.val < 136
  · have hlane : (stLane a).val < 17 := by simp only [stLane]; omega
    have hplace : 8 * (stLane a).val + (stByte a).val = a.val := Nat.div_add_mod a.val 8
    simp only [stRead, xorBlk_get, hlane, h, dif_pos, laneByte_xor, laneByte_blockLane, hplace]
  · have hlane : ¬ (stLane a).val < 17 := by simp only [stLane]; omega
    simp only [stRead, xorBlk_get, hlane, h, dif_neg, not_false_eq_true]

/-- Two grids with the same 200 bytes are the same grid. -/
theorem lanes_eq_of_stRead {l m : Lanes} (h : ∀ a, stRead l a = stRead m a) : l = m :=
  Lanes.ext_get fun i => by
    obtain ⟨-, hbytes, -⟩ := stateBytesAreLittleEndian
    rw [hbytes l i, hbytes m i]
    simp only [h]

/-- One turn of the loop of R101: byte `k` of the block is XORed into byte `k` of ST. -/
def xorByte (blk : Block) (l : Lanes) (k : Fin 136) : Lanes :=
  stWrite l (k.castLE (by decide)) (stRead l (k.castLE (by decide)) ^^^ blk[k.val])

theorem xorBlkBytes_eq (blk : Block) (l : Lanes) : xorBlkBytes blk l = (List.finRange 136).foldl (xorByte blk) l := rfl

theorem stRead_xorByte_same (blk : Block) (l : Lanes) {k : Fin 136} {a : Fin 200} (h : k.val = a.val) :
    stRead (xorByte blk l k) a = stRead l a ^^^ blk[k.val] := by
  obtain rfl : k.castLE (by decide) = a := Fin.ext h
  exact (stateWriteReplacesOneByte l _ _).1

theorem stRead_xorByte_of_ne (blk : Block) (l : Lanes) {k : Fin 136} {a : Fin 200} (h : k.val ≠ a.val) :
    stRead (xorByte blk l k) a = stRead l a :=
  (stateWriteReplacesOneByte l _ _).2 a fun heq => h (congrArg Fin.val heq).symm

/-- Turns of the loop at other bytes leave a byte as it is. -/
theorem stRead_foldl_xorByte_of_ne (blk : Block) {ks : List (Fin 136)} {a : Fin 200} (h : ∀ k ∈ ks, k.val ≠ a.val)
    (l : Lanes) : stRead (ks.foldl (xorByte blk) l) a = stRead l a := by
  induction ks generalizing l with
  | nil => rfl
  | cons k ks ih =>
    rw [List.foldl_cons, ih fun j hj => h j (List.mem_cons_of_mem k hj),
      stRead_xorByte_of_ne blk l (h k List.mem_cons_self)]

/-- The one turn of the loop at a byte XORs the block's byte into it. -/
theorem stRead_foldl_xorByte_of_mem (blk : Block) {ks : List (Fin 136)} (hnodup : ks.Nodup) {k : Fin 136} (hk : k ∈ ks)
    {a : Fin 200} (ha : k.val = a.val) (l : Lanes) :
    stRead (ks.foldl (xorByte blk) l) a = stRead l a ^^^ blk[k.val] := by
  induction ks generalizing l with
  | nil => cases hk
  | cons j ks ih =>
    obtain ⟨hj, hnodup⟩ := List.nodup_cons.mp hnodup
    rw [List.foldl_cons]
    rcases List.mem_cons.mp hk with rfl | hk
    · have hrest : ∀ i ∈ ks, i.val ≠ a.val := fun i hi heq => hj (Fin.ext (ha.trans heq.symm) ▸ hi)
      rw [stRead_foldl_xorByte_of_ne blk hrest, stRead_xorByte_same blk l ha]
    · have hne : j.val ≠ a.val := fun heq => hj (Fin.ext (heq.trans ha.symm) ▸ hk)
      rw [ih hnodup hk, stRead_xorByte_of_ne blk l hne]

/-- The loop of R101 is XORBLK on the lanes. -/
theorem xorBlk_eq_xorBlkBytes (blk : Block) (l : Lanes) : xorBlk blk l = xorBlkBytes blk l :=
  lanes_eq_of_stRead fun a => by
    rw [stRead_xorBlk, xorBlkBytes_eq]
    split
    · next h =>
      have hturn : (⟨a.val, h⟩ : Fin 136) ∈ List.finRange 136 := List.mem_finRange _
      exact (stRead_foldl_xorByte_of_mem blk (List.nodup_finRange 136) hturn rfl l).symm
    · next h => exact (stRead_foldl_xorByte_of_ne blk (fun k _ heq => h (heq ▸ k.isLt)) l).symm

/-- Settles O25: bytes of lanes XOR byte by byte, and the loop comes to each byte of the rate region once. -/
theorem xorBlockBytes : Obligations.XorBlockBytes := fun blk l =>
  ⟨stRead_xorBlk blk l, fun i => (xorBlk_get blk l _).trans (dif_pos i.isLt),
    fun i hi => (xorBlk_get blk l i).trans (dif_neg (by omega)), xorBlk_eq_xorBlkBytes blk l⟩

end Sys2Proof.Proofs
end

section
namespace Sys2Proof.Proofs
open Sys2Proof Sys2Proof.Machine

/-! ## Padding (R103, R105, R106) -/

theorem pad_of_le {t : Nat} (h : t ≤ 134) : pad t = 0x01 :: (List.replicate (134 - t) 0x00 ++ [0x80]) :=
  if_neg (by omega)

theorem pad_last : pad 135 = [0x81] := rfl

theorem pad_length {t : Nat} (h : t ≤ 135) : (pad t).length = 136 - t := by
  rcases Nat.lt_or_eq_of_le h with hlt | rfl
  · rw [pad_of_le (by omega)]
    simp; omega
  · rfl

theorem padded_length (m : List Byte) : (padded m).length = 136 * (m.length / 136 + 1) := by
  rw [padded, List.length_append, pad_length (by omega)]
  omega

/-- PADBLK is the buffered bytes followed by pad(OFF). -/
theorem padBlk_toList {buf : Block} {off : BitVec 8} (ho : off.toNat ≤ 135) :
    (padBlk buf off).toList = buf.toList.take off.toNat ++ pad off.toNat := by
  have hbuffered : (buf.toList.take off.toNat).length = off.toNat := by simp; omega
  apply List.ext_getElem?
  intro k
  by_cases hk : k < 136
  · rcases Nat.lt_or_ge k off.toNat with hlt | hge
    · rw [List.getElem?_append_left (by omega)]
      simp [hk, hlt, padBlk_getElem_of_lt ho hlt]
    · rw [List.getElem?_append_right (by omega), hbuffered, ← some_padBlk_getElem_eq_pad (buf := buf) hge hk]
      simp [hk]
  · have hlength : (buf.toList.take off.toNat ++ pad off.toNat).length = 136 := by
      rw [List.length_append, hbuffered, pad_length ho]; omega
    rw [List.getElem?_eq_none (by simp; omega), List.getElem?_eq_none (by omega)]

/-- The bytes of PADBLK, with the marker of the last byte apart. -/
theorem padBlk_getElem (buf : Block) (off : BitVec 8) (k : Fin 136) :
    (padBlk buf off)[k.val] =
      (if k.val < off.toNat then buf[k.val] else if k.val = off.toNat then 0x01 else 0x00) |||
        (if k.val = 135 then 0x80 else 0x00) := by
  rw [padBlk_get _ _ _ k.isLt]
  by_cases hlast : k.val = 135
  · rw [if_pos hlast, if_pos hlast, padByte]
  · rw [if_neg hlast, if_neg hlast, padByte]
    exact BitVec.or_zero.symm

/-- Settles O26: the bytes of PADBLK by its definition, its parts by those of pad(OFF). -/
theorem paddingRule : Obligations.PaddingRule := by
  intro buf off ho
  have hparts := padBlk_toList (buf := buf) ho
  refine ⟨padBlk_getElem buf off, fun hzero => ?_, fun hle => ?_, fun hlast => ?_⟩
  · rw [hparts, hzero]; rfl
  · rw [hparts, pad_of_le hle]; simp
  · rw [hparts, hlast, pad_last]

/-- Settles O27: the lengths by that of pad(t), and PADBLK by its parts. -/
theorem paddedMessageLength : Obligations.PaddedMessageLength := by
  refine ⟨fun t => pad_of_le, pad_last, fun t => pad_length, fun m => ?_, fun buf off => padBlk_toList⟩
  have hlength := padded_length m
  exact ⟨hlength, by omega, by omega⟩

/-! ## Messages of whole blocks (R107, R110) -/

theorem length_flatMap_toList (bs : List Block) : (bs.flatMap Vector.toList).length = 136 * bs.length := by
  simp [List.length_flatMap, Nat.mul_comm]

/-- The first block of bytes that begin with a block. -/
theorem blockOf_append_zero (b : Block) (p : List Byte) : blockOf (b.toList ++ p) 0 = b :=
  (eq_blockOf fun k => by simp [List.getElem?_append]).symm

/-- The blocks after the first are those of the bytes that follow it. -/
theorem blockOf_append_succ (b : Block) (p : List Byte) (n : Nat) :
    blockOf (b.toList ++ p) (n + 1) = blockOf p n := by
  have hget : ∀ k : Fin 136, (b.toList ++ p).getD (136 * (n + 1) + k.val) 0 = p.getD (136 * n + k.val) 0 := fun k => by
    rw [List.getD_append_right _ _ _ _ (by simp; omega)]
    congr 1
    simp; omega
  simp only [blockOf, hget]

theorem map_blockOf_flatMap (bs : List Block) :
    (List.range bs.length).map (blockOf (bs.flatMap Vector.toList)) = bs := by
  induction bs with
  | nil => rfl
  | cons b bs ih =>
    rw [List.length_cons, List.range_succ_eq_map, List.map_cons, List.flatMap_cons, blockOf_append_zero, List.map_map]
    exact congrArg (b :: ·) ((List.map_congr_left fun n _ => blockOf_append_succ b _ n).trans ih)

/-- A message's blocks are its full blocks and the block that is padded (R105). -/
theorem blocks_eq (m : List Byte) :
    blocks m = (List.range (m.length / 136)).map (blockOf m) ++ [blockOf (padded m) (m.length / 136)] := by
  rw [blocks, List.range_succ, List.map_append, padded, map_blockOf_append]
  rfl

/-- Settles O28: nothing is left over after the full blocks, so the block that is padded holds no message byte. -/
theorem fullBlocksThenPaddingBlock : Obligations.FullBlocksThenPaddingBlock := by
  intro bs
  have hlength := length_flatMap_toList bs
  have hcount : (bs.flatMap Vector.toList).length / 136 = bs.length := by omega
  have hpad := padBlk_eq_blockOf (buf := Vector.replicate 136 0) (off := 0) (m := bs.flatMap Vector.toList)
    (by rw [hlength]; simp) fun k hk => absurd hk (Nat.not_lt_zero k.val)
  rw [blocks_eq, ← hpad, hcount, map_blockOf_flatMap]

end Sys2Proof.Proofs
end

section
namespace Sys2Proof.Proofs
open Sys2Proof Sys2Proof.Machine

/-! ## ABSORB and FINAL, byte by byte (R100, R103, R122, R123) -/

theorem bufPut_getElem (b : Byte) (s : State) (k : Fin 136) :
    (bufPut b s).buf[k.val] = if k.val = s.off.toNat then b else s.buf[k.val] := by
  rw [bufPut_buf, Vector.getElem_setIfInBounds]
  simp only [eq_comm (a := s.off.toNat)]

/-- Settles O30: the byte does not fill the buffer, so ABSORB only stores it. -/
theorem absorbStoresByte : Obligations.AbsorbStoresByte := by
  intro b s hp ho
  have hmore : s.off ≠ 135 := fun hoff => by simp [hoff] at ho
  refine ⟨(bufPut b s).buf, ?_, off_add_one_toNat (by omega), bufPut_getElem b s⟩
  rw [exec_absorb_of_phase b hp, absorbBody_of_ne hmore]
  rfl

/-- A whole FINAL, in closed form. -/
theorem finalBody_eq (s : State) :
    finalBody () s = { s with
      lanes := absorbLanes s.lanes (padBlk s.buf s.off), off := 0, phase := .done, seq := .start, activity := .rest,
      rsp := some ⟨false, 0x00⟩,
      tap := if s.hasTap then s.tap ++ blockEvents (padBlk s.buf s.off) s.lanes ++
        [⟨.finalState, 0, absorbLanes s.lanes (padBlk s.buf s.off)⟩] else s.tap } := by
  rw [finalBody, absorbBlk_eq]
  by_cases ht : s.hasTap = true <;> simp [finishCommand, emitTap, respond, engineResult, ht]

/-- Settles O32: FINAL absorbs PADBLK in phase ABSORB, and its checks refuse all else. -/
theorem finalAbsorbsPaddedBlock : Obligations.FinalAbsorbsPaddedBlock := by
  refine ⟨fun s hp ha _ => ⟨padBlk s.buf s.off, ?_, padBlk_getElem s.buf s.off⟩, fun a s hne => ?_, fun s hp => ?_⟩
  · rw [exec_final_of_phase hp, finalBody_eq, ← ha]
    rfl
  · rw [exec_final, noOperand_ne_zero hne]
    rfl
  · rw [exec_final, noOperand_zero]
    exact if_neg (by simpa [inAbsorb] using hp)

end Sys2Proof.Proofs
end

section
namespace Sys2Proof.Proofs
open Sys2Proof Sys2Proof.Machine

/-! ## The computation of a digest (R105, R109) -/

/-- `n` steps lead from `s` to `t`, each of them an accepted command that does not fault. -/
def RunsWithoutFault (n : Nat) (s t : State) : Prop :=
  run n s = .next t ∧ ∀ o ∈ shownBy n s, o.rsp = some ⟨false, 0x00⟩

theorem runsWithoutFault_zero (s : State) : RunsWithoutFault 0 s s := ⟨rfl, nofun⟩

theorem RunsWithoutFault.cons {n : Nat} {s t u : State} (hstep : step s = .next t)
    (hrsp : t.rsp = some ⟨false, 0x00⟩) (h : RunsWithoutFault n t u) : RunsWithoutFault (n + 1) s u := by
  obtain ⟨hrun, hshown⟩ := h
  refine ⟨(run_succ hstep).trans hrun, ?_⟩
  rw [shownBy_succ hstep]
  exact List.forall_mem_cons.mpr ⟨hrsp, hshown⟩

/-- A command that absorbs a byte or a block takes no fault and no word. -/
theorem absorbBody_ecode (b : Byte) (s : State) : (absorbBody b s).ecode = s.ecode := by
  by_cases hlast : s.off = 135
  · rw [absorbBody_of_eq hlast, absorbBlk_eq, finishCommand_ecode]; rfl
  · rw [absorbBody_of_ne hlast]; rfl

theorem absorbBody_input (b : Byte) (s : State) : (absorbBody b s).input = s.input := by
  by_cases hlast : s.off = 135
  · rw [absorbBody_of_eq hlast, absorbBlk_eq, finishCommand_input]; rfl
  · rw [absorbBody_of_ne hlast]; rfl

/-- The events of a computation after its INIT. -/
def messageEvents (m : List Byte) : List HostEvent := (m.map fun b => .command (cmdWord 0x02 b)) ++ [.command 0x0300]

theorem hashEvents_eq (m : List Byte) : hashEvents m = .command 0x0100 :: messageEvents m := rfl

/-- Absorbing the bytes of `m` one by one and ending the message leaves the digest of all that was absorbed. -/
theorem exists_hashed_of_absorbing (m : List Byte) {m₀ : List Byte} {s : State} {rest : List HostEvent}
    (h : s.absorbing m₀) (he : s.ecode = .none) (hi : s.input = messageEvents m ++ rest) :
    ∃ t, RunsWithoutFault (m.length + 1) s t ∧ t.hashed (m₀ ++ m) ∧ t.ecode = .none ∧ t.input = rest := by
  induction m generalizing m₀ s with
  | nil =>
    have ⟨ha, hp, _⟩ := h
    refine ⟨_, .cons (step_of_final ⟨ha, hi⟩ hp) (finalBody_rsp _) (runsWithoutFault_zero _), ?_, ?_, ?_⟩
    · rw [List.append_nil]
      exact hashed_finalBody (absorbing_clearOutputs rest h)
    · rw [finalBody_eq]
      exact he
    · rw [finalBody_eq]
      rfl
  | cons b m ih =>
    have ⟨ha, hp, _⟩ := h
    have hstep := step_of_absorb (rest := messageEvents m ++ rest) ⟨ha, hi⟩ hp
    obtain ⟨t, hrun, hhashed, hdone⟩ := ih (absorbing_absorbBody b (absorbing_clearOutputs _ h))
      ((absorbBody_ecode b _).trans he) (absorbBody_input b _)
    exact ⟨t, .cons hstep (absorbBody_rsp b _) hrun, by simpa using hhashed, hdone⟩

/-- INIT, the bytes of `m` and FINAL leave the digest of `m`, from any state at rest. -/
theorem exists_hashed_of_hashEvents (m : List Byte) {s : State} (rest : List HostEvent) (ha : s.activity = .rest) :
    ∃ t, RunsWithoutFault (m.length + 2) (s.present (hashEvents m ++ rest)) t ∧ t.hashed m ∧ t.ecode = .none ∧
      t.input = rest := by
  have hinput : (s.present (hashEvents m ++ rest)).input = .command 0x0100 :: (messageEvents m ++ rest) :=
    congrArg (· ++ rest) (hashEvents_eq m)
  have hstep := step_of_init (s := s.present (hashEvents m ++ rest)) ⟨ha, hinput⟩
  have hempty := absorbing_initBody (s := s.taken (messageEvents m ++ rest)) ha
  obtain ⟨t, hrun, hdone⟩ := exists_hashed_of_absorbing m hempty rfl rfl
  exact ⟨t, .cons hstep rfl hrun, hdone⟩

/-- RDIG reads the digest that the block holds (R124). -/
theorem exec_rdig_of_hashed {m : List Byte} {t : State} (h : t.hashed m) (i : Fin 32) :
    exec (.rdig (BitVec.ofNat 8 i.val)) t = .next { t with rsp := some ⟨false, (keccak256 m)[i.val]⟩ } := by
  obtain ⟨-, hp, -, hlanes⟩ := h
  have hindex : (BitVec.ofNat 8 i.val).toNat = i.val := by simp; omega
  rw [exec_rdig, digestIndex_lt (by omega), carryOut_ok (by simp [inDone, hp])]
  simp [rdigBody, respond, hlanes, keccak256, hindex]

/-- Settles O53: the digest of `m` that the run leaves is what RDIG reads. -/
theorem machineComputesKeccak256 : Obligations.MachineComputesKeccak256 := by
  intro m s rest ha
  obtain ⟨t, ⟨hrun, hshown⟩, hhashed, hecode, hinput⟩ := exists_hashed_of_hashEvents m rest ha
  have ⟨hrest, hphase, hoff, _⟩ := hhashed
  exact ⟨t, hrun, hshown, hphase, hoff, hecode, hrest, hinput, exec_rdig_of_hashed hhashed⟩

/-! ## The empty message (R111) -/

/-- KECCAK256 of the empty message, as R111 prints it. -/
def emptyDigest : List Byte :=
  [0xC5, 0xD2, 0x46, 0x01, 0x86, 0xF7, 0x23, 0x3C, 0x92, 0x7E, 0x7D, 0xB2, 0xDC, 0xC7, 0x03, 0xC0,
   0xE5, 0x00, 0xB6, 0x53, 0xCA, 0x82, 0x27, 0x3B, 0x7B, 0xFA, 0xD8, 0x04, 0x5D, 0x85, 0xA4, 0x70]

/-- The engine on the one block of the empty message, run by the kernel. -/
theorem keccak256_nil : (keccak256 []).toList = emptyDigest := by decide +kernel

theorem keccak256_nil_getElem (i : Fin 32) : (keccak256 [])[i.val] = emptyDigest.getD i.val 0 := by
  rw [← keccak256_nil]; simp

/-- With an empty buffer PADBLK is the all-padding block, whatever BUF holds. -/
theorem padBlk_zero_toList (buf : Block) :
    (padBlk buf 0).toList = [0x01] ++ List.replicate 134 0x00 ++ [0x80] :=
  (padBlk_toList (by decide)).trans rfl

/-- FINAL with an empty buffer absorbs the one block of the empty message. -/
theorem spongeState_nil (buf : Block) : spongeState [] = absorbLanes .zero (padBlk buf 0) := by
  have hblock : padBlk buf 0 = blockOf (padded []) 0 :=
    padBlk_eq_blockOf rfl fun k hk => absurd hk (Nat.not_lt_zero k.val)
  rw [hblock]
  exact spongeState_eq []

/-- Settles O54: the empty message is no full block and the padding block, and its digest is a known answer. -/
theorem emptyMessageDigest : Obligations.EmptyMessageDigest := by
  refine ⟨?_, fun s ha => ?_⟩
  · have hblocks : blocks [] = [padBlk (Vector.replicate 136 0) 0] := fullBlocksThenPaddingBlock []
    rw [hblocks, List.map_singleton, padBlk_zero_toList]
  · obtain ⟨t, ⟨hrun, -⟩, hhashed, -⟩ := exists_hashed_of_hashEvents [] [] ha
    have ⟨_, _, _, hlanes⟩ := hhashed
    refine ⟨t, hrun, hlanes.trans (spongeState_nil s.buf), padBlk_zero_toList s.buf, fun i => ?_⟩
    rw [exec_rdig_of_hashed hhashed, keccak256_nil_getElem]
    rfl

end Sys2Proof.Proofs
end

section
namespace Sys2Proof.Proofs
open Sys2Proof Sys2Proof.Machine

/-! ## Relations of two states that steps keep -/

/-- Both answers are next states, and these are related. -/
def AnswersRelated (R : State → State → Prop) (a a' : Result) : Prop :=
  ∃ t t', a = .next t ∧ a' = .next t' ∧ R t t'

theorem answersRelated_next {R : State → State → Prop} {t t' : State} (h : R t t') :
    AnswersRelated R (.next t) (.next t') :=
  ⟨t, t', rfl, rfl, h⟩

/-- The relation fixes PHASE, and faults and the bodies of the five commands keep it. -/
structure KeptByCommands (R : State → State → Prop) : Prop where
  phase : ∀ {s t}, R s t → t.phase = s.phase
  raiseFault : ∀ {s t} (c : Cause), R s t → R (raiseFault c s) (raiseFault c t)
  init : ∀ {s t}, R s t → R (initBody () s) (initBody () t)
  absorb : ∀ {s t} (b : Byte), R s t → R (absorbBody b s) (absorbBody b t)
  final : ∀ {s t}, R s t → R (finalBody () s) (finalBody () t)
  rdig : ∀ {s t} (k : Fin 32), R s t → R (rdigBody k s) (rdigBody k t)
  rdsr : ∀ {s t} (n : Fin 2), R s t → R (rdsrBody n s) (rdsrBody n t)

/-- The checks of a command (R120) read PHASE and the operand only. -/
theorem KeptByCommands.carryOut {R : State → State → Prop} (hR : KeptByCommands R) {α : Type}
    {operand : Except Cause α} {allowed : Phase → Bool} {body : α → State → State} {s t : State} (h : R s t)
    (hbody : ∀ a, R (body a s) (body a t)) :
    AnswersRelated R (carryOut operand allowed body s) (carryOut operand allowed body t) := by
  cases operand with
  | error c => exact answersRelated_next (hR.raiseFault c h)
  | ok a =>
    simp only [Machine.carryOut, hR.phase h]
    split
    · exact answersRelated_next (hbody a)
    · exact answersRelated_next (hR.raiseFault .badphase h)

theorem KeptByCommands.exec {R : State → State → Prop} (hR : KeptByCommands R) {w : CmdWord} {i : Instr} {s t : State}
    (hd : decodeCommand w = .ok i) (h : R s t) : AnswersRelated R (exec i s) (exec i t) := by
  rcases decodeCommand_cases hd with rfl | rfl | rfl | rfl | rfl
  · rw [exec_init, exec_init]
    exact hR.carryOut h fun _ => hR.init h
  · rw [exec_absorb, exec_absorb]
    exact hR.carryOut h fun b => hR.absorb b h
  · rw [exec_final, exec_final]
    exact hR.carryOut h fun _ => hR.final h
  · rw [exec_rdig, exec_rdig]
    exact hR.carryOut h fun k => hR.rdig k h
  · rw [exec_rdsr, exec_rdsr]
    exact hR.carryOut h fun n => hR.rdsr n h

/-- Two states at rest to which the host presents the same step alike, if a reset and the word taken relate them. -/
theorem KeptByCommands.step {R : State → State → Prop} (hR : KeptByCommands R) {s t : State} (ha : s.activity = .rest)
    (ha' : t.activity = .rest) (hinput : t.input = s.input) (hreset : ∀ rest, R (resetBlock rest s) (resetBlock rest t))
    (htaken : ∀ rest, R (s.taken rest) (t.taken rest)) : AnswersRelated R (step s) (step t) := by
  rcases hi : s.input with _ | ⟨w | _, rest⟩
  · have hi' : t.input = [] := hinput.trans hi
    have hs : clearOutputs s = s.taken [] := by rw [← hi]; rfl
    have ht : clearOutputs t = t.taken [] := by rw [← hi']; rfl
    rw [step_of_idle ha hi, step_of_idle ha' hi', hs, ht]
    exact answersRelated_next (htaken [])
  · rcases hd : decodeCommand w with e | i
    · rw [step_of_illegal ha hi hd, step_of_illegal ha' (hinput.trans hi) hd]
      exact answersRelated_next (hR.raiseFault .illop (htaken rest))
    · rw [step_of_command ha hi hd, step_of_command ha' (hinput.trans hi) hd]
      exact hR.exec hd (htaken rest)
  · rw [step_of_reset hi, step_of_reset (hinput.trans hi)]
    exact answersRelated_next (hreset rest)

/-- Runs show the host the same, if steps keep a relation of states whose outputs are the same. -/
theorem shownBy_eq_of_related {R : State → State → Prop} (hstep : ∀ {s t}, R s t → AnswersRelated R (step s) (step t))
    (hshown : ∀ {s t}, R s t → t.shown = s.shown) (n : Nat) {s t : State} (h : R s t) : shownBy n t = shownBy n s := by
  induction n generalizing s t with
  | zero => rfl
  | succ n ih =>
    obtain ⟨u, v, hu, hv, huv⟩ := hstep h
    rw [shownBy_succ hu, shownBy_succ hv, hshown huv, ih huv]

end Sys2Proof.Proofs
end

section
namespace Sys2Proof.Proofs
open Sys2Proof Sys2Proof.Machine

/-! ## A copy with the tap and one without (R152, R112) -/

/-- The second state is the first on a copy with the given HAS_TAP: the events may differ, and without a tap there are
none. -/
def AlikeButTap (hasTap : Bool) (s t : State) : Prop :=
  ∃ tap, t = { s with hasTap := hasTap, tap := tap } ∧ (hasTap = false → tap = [])

/-- An operation that neither reads nor writes HAS_TAP and the events. -/
theorem AlikeButTap.map {h : Bool} {s t : State} (f : State → State)
    (hf : ∀ tap, f { s with hasTap := h, tap := tap } = { f s with hasTap := h, tap := tap })
    (hst : AlikeButTap h s t) : AlikeButTap h (f s) (f t) := by
  obtain ⟨tap, rfl, hnone⟩ := hst
  exact ⟨tap, hf tap, hnone⟩

/-- A step begins with no events, whatever the tap showed before. -/
theorem alikeButTap_clearOutputs (h : Bool) (tap : List TapEvent) (s : State) :
    AlikeButTap h (clearOutputs s) (clearOutputs { s with hasTap := h, tap := tap }) :=
  ⟨[], rfl, fun _ => rfl⟩

theorem AlikeButTap.raiseFault {h : Bool} {s t : State} (c : Cause) :
    AlikeButTap h s t → AlikeButTap h (raiseFault c s) (raiseFault c t) :=
  .map (Machine.raiseFault c) fun tap => by by_cases hp : s.phase = .fault <;> simp [Machine.raiseFault, respond, hp]

/-- The engine emits its events where there is a tap, and does the rest of its work either way. -/
theorem AlikeButTap.engineResult {h : Bool} {s t : State} (l : Lanes) (q : Sequencer) (es : List TapEvent)
    (hst : AlikeButTap h s t) : AlikeButTap h (engineResult l q es s) (engineResult l q es t) := by
  obtain ⟨tap, rfl, hnone⟩ := hst
  exact ⟨if h then tap ++ es else tap, rfl, fun hfalse => by simp [hfalse, hnone]⟩

theorem AlikeButTap.lanes_eq {h : Bool} {s t : State} (hst : AlikeButTap h s t) : t.lanes = s.lanes := by
  obtain ⟨tap, rfl, -⟩ := hst
  rfl

theorem AlikeButTap.emitTap {h : Bool} {s t : State} (k : TapKind) (r : Fin 24) (hst : AlikeButTap h s t) :
    AlikeButTap h (emitTap k r s) (emitTap k r t) := by
  have hevent := hst.engineResult s.lanes s.seq [⟨k, r, s.lanes⟩]
  obtain ⟨tap, rfl, -⟩ := hst
  rw [emitTap_eq, emitTap_eq]
  exact hevent

theorem AlikeButTap.microOp {h : Bool} {s t : State} (q : Sequencer) (hst : AlikeButTap h s t) :
    AlikeButTap h (microOp q s) (microOp q t) := by
  rw [microOp_eq, microOp_eq, hst.lanes_eq]
  exact hst.engineResult ..

theorem AlikeButTap.absorbBlk {h : Bool} {s t : State} (c : Caller) (blk : Block) (hst : AlikeButTap h s t) :
    AlikeButTap h (absorbBlk c blk s) (absorbBlk c blk t) := by
  rw [absorbBlk_eq, absorbBlk_eq, hst.lanes_eq]
  exact (hst.engineResult ..).map (fun u => { u with activity := .permuting c }) fun _ => rfl

theorem AlikeButTap.finishCommand {h : Bool} {s t : State} (c : Caller) (hst : AlikeButTap h s t) :
    AlikeButTap h (finishCommand c s) (finishCommand c t) := by
  cases c with
  | absorb => exact hst.map (Machine.finishCommand .absorb) fun _ => rfl
  | final =>
    exact (hst.emitTap .finalState 0).map
      (fun u => respond false 0x00 { u with off := 0, phase := .done, activity := .rest }) fun _ => rfl

theorem AlikeButTap.settle {h : Bool} {s t : State} (c : Caller) (hst : AlikeButTap h s t) :
    AlikeButTap h (settle c s) (settle c t) := by
  have hseq : t.seq = s.seq := by obtain ⟨tap, rfl, -⟩ := hst; rfl
  unfold Machine.settle
  rw [hseq]
  split
  · exact hst.finishCommand c
  · exact hst

theorem AlikeButTap.absorbBody {h : Bool} {s t : State} (b : Byte) (hst : AlikeButTap h s t) :
    AlikeButTap h (absorbBody b s) (absorbBody b t) := by
  have hput : AlikeButTap h (bufPut b s) (bufPut b t) := hst.map (bufPut b) fun _ => rfl
  have hoff : (bufPut b t).off = (bufPut b s).off := by obtain ⟨tap, rfl, -⟩ := hst; rfl
  have hbuf : (bufPut b t).buf = (bufPut b s).buf := by obtain ⟨tap, rfl, -⟩ := hst; rfl
  unfold Machine.absorbBody
  rw [hoff, hbuf]
  split
  · exact (hput.absorbBlk ..).finishCommand .absorb
  · exact hput.map (respond false 0x00) fun _ => rfl

theorem AlikeButTap.finalBody {h : Bool} {s t : State} (hst : AlikeButTap h s t) :
    AlikeButTap h (finalBody () s) (finalBody () t) := by
  have hblock : padBlk t.buf t.off = padBlk s.buf s.off := by obtain ⟨tap, rfl, -⟩ := hst; rfl
  unfold Machine.finalBody
  rw [hblock]
  exact (hst.absorbBlk ..).finishCommand .final

theorem keptByCommands_alikeButTap (h : Bool) : KeptByCommands (AlikeButTap h) where
  phase := by rintro s t ⟨tap, rfl, -⟩; rfl
  raiseFault := .raiseFault
  init := .map (initBody ()) fun _ => rfl
  absorb := .absorbBody
  final := .finalBody
  rdig := fun k => .map (rdigBody k) fun _ => rfl
  rdsr := fun n => .map (rdsrBody n) fun _ => rfl

/-- A reset keeps HAS_TAP and leaves no events (R160, R161). -/
theorem alikeButTap_resetBlock (h : Bool) (tap : List TapEvent) (s : State) (rest : List HostEvent) :
    AlikeButTap h (resetBlock rest s) (resetBlock rest { s with hasTap := h, tap := tap }) :=
  ⟨[], rfl, fun _ => rfl⟩

/-- A step on a copy with another HAS_TAP, whatever events the last step emitted. -/
theorem alikeButTap_step (h : Bool) (tap : List TapEvent) (s : State) :
    AnswersRelated (AlikeButTap h) (step s) (step { s with hasTap := h, tap := tap }) := by
  have hrest (ha : s.activity = .rest) :
      AnswersRelated (AlikeButTap h) (step s) (step { s with hasTap := h, tap := tap }) :=
    (keptByCommands_alikeButTap h).step ha ha rfl (alikeButTap_resetBlock h tap s) fun rest =>
      alikeButTap_clearOutputs h tap { s with input := rest }
  obtain ⟨rest, hi, -⟩ | ⟨c, ha, hi, -⟩ | ⟨_, _, ha, -⟩ | ⟨ha, -⟩ := fetch_cases s
  · rw [step_of_reset hi, step_of_reset (s := { s with hasTap := h, tap := tap }) hi]
    exact answersRelated_next (alikeButTap_resetBlock h tap s rest)
  · rw [step_permuting ha hi, step_permuting (s := { s with hasTap := h, tap := tap }) ha hi]
    exact answersRelated_next (((alikeButTap_clearOutputs h tap s).microOp s.seq).settle c)
  · exact hrest ha
  · exact hrest ha

theorem step_withTap {s t : State} (hstep : step s = .next t) (h : Bool) (tap : List TapEvent) :
    ∃ tap', step { s with hasTap := h, tap := tap } = .next { t with hasTap := h, tap := tap' } ∧
      (h = false → tap' = []) := by
  obtain ⟨u, _, hu, ht', tap', rfl, hnone⟩ := alikeButTap_step h tap s
  obtain rfl : u = t := Host.Outcome.next.inj (hu.symm.trans hstep)
  exact ⟨tap', ht', hnone⟩

/-- Settles O48: the two copies step alike but for the events; a copy compared with itself shows that HAS_TAP stays. -/
theorem tapIsTransparent : Obligations.TapIsTransparent := by
  intro s t h es hstep
  obtain ⟨es', hes', hnone⟩ := step_withTap hstep h es
  obtain ⟨tap, hself, -⟩ := step_withTap hstep s.hasTap s.tap
  have ht : t = { t with hasTap := s.hasTap, tap := tap } := Host.Outcome.next.inj (hstep.symm.trans hself)
  exact ⟨es', hes', hnone, by rw [ht]⟩

end Sys2Proof.Proofs
end

section
namespace Sys2Proof.Proofs
open Sys2Proof Sys2Proof.Machine

/-! ## SEQ at rest (R16, R75) -/

/-- At rest, the two states differ in SEQ only, which every PERMUTE puts to (0, 0) before it reads it. -/
def DifferInSeq (s t : State) : Prop := s.activity = .rest ∧ ∃ q, t = { s with seq := q }

theorem differInSeq_refl {s : State} (ha : s.activity = .rest) : DifferInSeq s s := ⟨ha, s.seq, rfl⟩

/-- An operation that neither reads nor writes SEQ. -/
theorem DifferInSeq.map {s t : State} (f : State → State) (ha : (f s).activity = s.activity)
    (hf : ∀ q, f { s with seq := q } = { f s with seq := q }) (h : DifferInSeq s t) : DifferInSeq (f s) (f t) := by
  obtain ⟨hrest, q, rfl⟩ := h
  exact ⟨ha.trans hrest, q, hf q⟩

theorem DifferInSeq.raiseFault {s t : State} (c : Cause) :
    DifferInSeq s t → DifferInSeq (raiseFault c s) (raiseFault c t) :=
  .map (Machine.raiseFault c) (raiseFault_activity c s) fun q => by
    by_cases hp : s.phase = .fault <;> simp [Machine.raiseFault, respond, hp]

/-- ABSORBBLK starts its PERMUTE at (0, 0) wherever SEQ was (R75). -/
theorem absorbBlk_withSeq (c : Caller) (blk : Block) (q : Sequencer) (s : State) :
    absorbBlk c blk { s with seq := q } = absorbBlk c blk s := rfl

theorem DifferInSeq.absorbBody {s t : State} (b : Byte) (h : DifferInSeq s t) :
    DifferInSeq (absorbBody b s) (absorbBody b t) := by
  by_cases hlast : s.off = 135
  · obtain ⟨-, q, rfl⟩ := h
    rw [absorbBody_of_eq hlast, absorbBody_of_eq (s := { s with seq := q }) hlast]
    exact differInSeq_refl (finishCommand_activity _ _)
  · have hlast' : t.off ≠ 135 := by obtain ⟨-, q, rfl⟩ := h; exact hlast
    rw [absorbBody_of_ne hlast, absorbBody_of_ne hlast']
    exact h.map (fun u => respond false 0x00 (bufPut b u)) rfl fun _ => rfl

theorem DifferInSeq.finalBody {s t : State} (h : DifferInSeq s t) : DifferInSeq (finalBody () s) (finalBody () t) := by
  obtain ⟨-, q, rfl⟩ := h
  exact differInSeq_refl (finishCommand_activity _ _)

theorem keptByCommands_differInSeq : KeptByCommands DifferInSeq where
  phase := by rintro s t ⟨-, q, rfl⟩; rfl
  raiseFault := .raiseFault
  init := .map (initBody ()) rfl fun _ => rfl
  absorb := .absorbBody
  final := .finalBody
  rdig := fun k => .map (rdigBody k) rfl fun _ => rfl
  rdsr := fun n => .map (rdsrBody n) rfl fun _ => rfl

theorem differInSeq_step {s t : State} (h : DifferInSeq s t) : AnswersRelated DifferInSeq (step s) (step t) := by
  obtain ⟨ha, q, rfl⟩ := h
  exact keptByCommands_differInSeq.step ha ha rfl (fun _ => differInSeq_refl rfl) fun _ => ⟨ha, q, rfl⟩

/-! ## What the host is shown after INIT (R112, R121) -/

theorem shownBy_eq_of_alike (n : Nat) {s t : State} (h : s.alikeToHost t) : shownBy n t = shownBy n s :=
  shownBy_eq_of_related (R := State.alikeToHost) answersAlike_step
    (fun h => view_eq_of_alike h State.shown fun _ _ => rfl) n h

theorem shownBy_eq_of_differInSeq (n : Nat) {s t : State} (h : DifferInSeq s t) : shownBy n t = shownBy n s :=
  shownBy_eq_of_related differInSeq_step (fun ⟨_, _, heq⟩ => by rw [heq]; rfl) n h

/-- What INIT leaves of the state before it: HAS_TAP, SEQ, which no command reads at rest, and BUF, of which no byte is
defined. -/
theorem initBody_eq {s s' : State} (ha : s.activity = .rest) (ha' : s'.activity = .rest) (ht : s.hasTap = s'.hasTap)
    (events : List HostEvent) :
    initBody () (s'.taken events) = { initBody () (s.taken events) with seq := s'.seq, buf := s'.buf } := by
  simp [initBody, respond, startComputation, State.taken, ha, ha', ht]

/-- Settles O52: after INIT the two states differ in BUF and SEQ only, and neither can be seen. -/
theorem initForgetsThePast : Obligations.InitForgetsThePast := by
  intro s s' events n ha ha' ht
  cases n with
  | zero => rfl
  | succ n =>
    have hstep := step_of_init (s := s.present (.command 0x0100 :: events)) ⟨ha, rfl⟩
    have hstep' := step_of_init (s := s'.present (.command 0x0100 :: events)) ⟨ha', rfl⟩
    have hseq : DifferInSeq (initBody () (s.taken events)) { initBody () (s.taken events) with seq := s'.seq } :=
      ⟨ha, s'.seq, rfl⟩
    have hbuf := alikeToHost_withBuf (s := { initBody () (s.taken events) with seq := s'.seq }) s'.buf ha rfl
    have hafter : shownBy n (initBody () (s'.taken events)) = shownBy n (initBody () (s.taken events)) := by
      rw [initBody_eq ha ha' ht]
      exact (shownBy_eq_of_alike n hbuf).trans (shownBy_eq_of_differInSeq n hseq)
    rw [shownBy_succ hstep, shownBy_succ hstep']
    exact congrArg (List.cons _) hafter.symm

end Sys2Proof.Proofs
end

section
namespace Sys2Proof.Proofs
open Sys2Proof Sys2Proof.Machine

/-! ## The checks of each command (R51, R120, R141) -/

/-- A command whose phase check fails takes BADPHASE, whatever its operand (R120). -/
theorem carryOut_of_not_allowed {α : Type} {a : α} {allowed : Phase → Bool} {body : α → State → State} {s : State}
    (hp : allowed s.phase ≠ true) : carryOut (.ok a) allowed body s = .next (raiseFault .badphase s) :=
  if_neg hp

theorem exec_init_zero (s : State) : exec (.init 0) s = .next (initBody () s) := by
  rw [exec_init, noOperand_zero]
  exact carryOut_ok rfl

theorem exec_init_of_ne {a : Byte} (ha : a ≠ 0) (s : State) : exec (.init a) s = .next (raiseFault .rsvarg s) := by
  rw [exec_init, noOperand_ne_zero ha]
  rfl

theorem exec_final_of_ne {a : Byte} (ha : a ≠ 0) (s : State) : exec (.final a) s = .next (raiseFault .rsvarg s) := by
  rw [exec_final, noOperand_ne_zero ha]
  rfl

theorem exec_rdig_of_lt {idx : Byte} {s : State} (hi : idx.toNat < 32) (hp : s.phase = .done) :
    exec (.rdig idx) s = .next (rdigBody ⟨idx.toNat, hi⟩ s) := by
  rw [exec_rdig, digestIndex_lt hi]
  exact carryOut_ok (by simp [inDone, hp])

theorem exec_rdig_of_ge {idx : Byte} (hi : 32 ≤ idx.toNat) (s : State) :
    exec (.rdig idx) s = .next (raiseFault .badidx s) := by
  rw [exec_rdig, digestIndex_ge hi]
  rfl

theorem exec_rdig_of_phase_ne {idx : Byte} {s : State} (hi : idx.toNat < 32) (hp : s.phase ≠ .done) :
    exec (.rdig idx) s = .next (raiseFault .badphase s) := by
  rw [exec_rdig, digestIndex_lt hi]
  exact carryOut_of_not_allowed (by simpa [inDone] using hp)

/-! ## INIT, RDIG and RDSR (R121, R124, R125) -/

/-- Settles O29: with a legal operand INIT runs its body from every phase. -/
theorem initStartsComputation : Obligations.InitStartsComputation :=
  ⟨fun s => ⟨.zero, Lanes.get_zero, exec_init_zero s⟩, fun _ s ha => exec_init_of_ne ha s⟩

/-- A bit of a digest byte is the bit of the lane that the byte stands in (R31, R104). -/
theorem getLsbD_squeeze (l : Lanes) (i : Fin 32) (b : Fin 8) :
    (squeeze i l).getLsbD b.val = (l.get ⟨i.val / 8, by omega⟩).getLsbD (8 * (i.val % 8) + b.val) :=
  getLsbD_laneByte _ _ b

/-- Settles O33: in DONE the response is SQUEEZE, and the two checks refuse all else, the index first. -/
theorem rdigReadsDigestByte : Obligations.RdigReadsDigestByte :=
  ⟨fun idx s hp hi => ⟨squeeze ⟨idx.toNat, hi⟩ s.lanes, exec_rdig_of_lt hi hp, getLsbD_squeeze s.lanes ⟨idx.toNat, hi⟩⟩,
    fun _ s hi => exec_rdig_of_ge hi s, fun _ _ => exec_rdig_of_phase_ne⟩

/-- The number in SR0 (R17): PHASE is below 16, so ECODE stands above it. -/
theorem sr0_toNat (s : State) : s.sr0.toNat = 16 * s.ecode.code.toNat + s.phase.code.toNat := by
  have hphase : (0#2 ++ s.phase.code).toNat = s.phase.code.toNat := by
    rw [BitVec.toNat_append]
    simp
  rw [State.sr0, BitVec.toNat_append, ← Nat.shiftLeft_add_eq_or_of_lt (BitVec.isLt _), hphase, Nat.shiftLeft_eq]
  omega

/-- Settles O34: the two legal reads respond with SR0, as a number, and with SR1. -/
theorem rdsrReadsStatus : Obligations.RdsrReadsStatus := fun s =>
  ⟨⟨s.sr0, sr0_toNat s, exec_rdsr_of_lt (by decide) s⟩, exec_rdsr_of_lt (by decide) s, fun _ hn => exec_rdsr_of_ge hn s⟩

/-! ## The next phase (R126) -/

theorem absorbBody_phase (b : Byte) (s : State) : (absorbBody b s).phase = s.phase := by
  by_cases hlast : s.off = 135
  · rw [absorbBody_of_eq hlast, absorbBlk_eq]
    simp
  · rw [absorbBody_of_ne hlast]
    simp

theorem finalBody_phase (s : State) : (finalBody () s).phase = .done := by simp [finalBody]

/-- What a command that its phase does not allow leaves (R126, R142): FAULT, the response (1, BADPHASE), and ECODE as it
was if the phase was FAULT already. -/
def RefusedByPhase (s t : State) : Prop :=
  t.phase = .fault ∧ t.rsp = some ⟨true, 4⟩ ∧ t.ecode = if s.phase = .fault then s.ecode else .badphase

theorem refusedByPhase_raiseFault (s : State) : RefusedByPhase s (raiseFault .badphase s) :=
  ⟨raiseFault_phase _ s, raiseFault_rsp _ s, raiseFault_ecode _ s⟩

/-- A command that is allowed in phase `p` only, and whose body leads from `p` to `q`. -/
theorem exists_carryOut_phase {α : Type} {a : α} {allowed : Phase → Bool} {body : α → State → State} {s : State}
    {p q : Phase} (hallowed : allowed s.phase = true ↔ s.phase = p) (hbody : s.phase = p → (body a s).phase = q) :
    ∃ t, carryOut (.ok a) allowed body s = .next t ∧ if s.phase = p then t.phase = q else RefusedByPhase s t := by
  by_cases hp : s.phase = p
  · exact ⟨_, carryOut_ok (hallowed.mpr hp), (if_pos hp).mpr (hbody hp)⟩
  · exact ⟨_, carryOut_of_not_allowed (mt hallowed.mp hp), (if_neg hp).mpr (refusedByPhase_raiseFault s)⟩

/-- An instruction with an illegal operand only takes a fault (R51, R120). -/
theorem exec_of_not_wellFormed {i : Instr} (h : i.wellFormed ≠ true) (s : State) :
    ∃ c, exec i s = .next (raiseFault c s) := by
  cases i with
  | init a => exact ⟨_, exec_init_of_ne (by simpa [Instr.wellFormed] using h) s⟩
  | final a => exact ⟨_, exec_final_of_ne (by simpa [Instr.wellFormed] using h) s⟩
  | rdig idx => exact ⟨_, exec_rdig_of_ge (Nat.not_lt.mp (by simpa [Instr.wellFormed] using h)) s⟩
  | rdsr n => exact ⟨_, exec_rdsr_of_ge (Nat.not_lt.mp (by simpa [Instr.wellFormed] using h)) s⟩
  | absorb b | theta r | rhopi r | chi r | iota r => exact absurd rfl h

/-- An offered word that is no legal command only takes a fault: its opcode is illegal, or its operand is. -/
theorem step_of_not_legal {s : State} {w : CmdWord} {rest : List HostEvent} (hw : s.offered w rest)
    (hbad : ¬ ∃ i, decodeCommand w = .ok i ∧ i.wellFormed = true) :
    ∃ c, step s = .next (raiseFault c (s.taken rest)) := by
  obtain ⟨ha, hi⟩ := hw
  rcases hd : decodeCommand w with e | i
  · exact ⟨.illop, step_of_illegal ha hi hd⟩
  · obtain ⟨c, hc⟩ := exec_of_not_wellFormed (fun hwf => hbad ⟨i, hd, hwf⟩) (s.taken rest)
    exact ⟨c, (step_of_command ha hi hd).trans hc⟩

/-- Settles O36: the checks of a command send it to its body or to FAULT, and the bodies lead to ABSORB, to DONE, or
nowhere else. -/
theorem phaseTransitions : Obligations.PhaseTransitions := by
  intro s b i n hi hn
  refine ⟨⟨_, exec_init_zero s, rfl⟩, ?_, ?_, ?_, ⟨_, exec_rdsr_of_lt hn s, rfl⟩, fun w rest hw hbad => ?_⟩
  · exact exists_carryOut_phase (a := b) (by simp [inAbsorb]) (absorbBody_phase b s).trans
  · exact exists_carryOut_phase (a := ()) (by simp [inAbsorb]) fun _ => finalBody_phase s
  · rw [exec_rdig, digestIndex_lt hi]
    exact exists_carryOut_phase (by simp [inDone]) id
  · obtain ⟨c, hc⟩ := step_of_not_legal hw hbad
    exact ⟨_, hc, raiseFault_phase c _⟩

end Sys2Proof.Proofs
end

section
namespace Sys2Proof.Proofs
open Sys2Proof Sys2Proof.Machine

/-! ## Taking a fault (R142, R143) -/

/-- In FAULT only the response is new (R143). -/
theorem raiseFault_of_fault (c : Cause) {s : State} (hp : s.phase = .fault) :
    raiseFault c s = { s with rsp := some ⟨true, c.data⟩ } := by
  rw [raiseFault, if_pos hp]
  rfl

/-- Outside FAULT the cause is kept and the phase becomes FAULT (R142). -/
theorem raiseFault_of_ne_fault (c : Cause) {s : State} (hp : s.phase ≠ .fault) :
    raiseFault c s = { s with ecode := c.ecode, phase := .fault, rsp := some ⟨true, c.data⟩ } := by
  rw [raiseFault, if_neg hp]
  rfl

/-- Settles O37: the response data is the cause's code, and the two cases are those of the phase on entry. -/
theorem faultEntry : Obligations.FaultEntry := by
  intro c s
  refine ⟨c.data, by cases c <;> rfl, by cases c <;> rfl, ?_⟩
  split
  · next hp => exact raiseFault_of_fault c hp
  · next hp => exact raiseFault_of_ne_fault c hp

/-- A fault reads neither the port nor what the host presents. -/
theorem raiseFault_taken (c : Cause) (s : State) (rest : List HostEvent) :
    raiseFault c (s.taken rest) = { raiseFault c s with input := rest, tap := [] } := by
  by_cases hp : s.phase = .fault
  · rw [raiseFault_of_fault c hp, raiseFault_of_fault c (show (s.taken rest).phase = .fault from hp)]
    rfl
  · rw [raiseFault_of_ne_fault c hp, raiseFault_of_ne_fault c (show (s.taken rest).phase ≠ .fault from hp)]
    rfl

/-! ## The step of an offered word, by its opcode (R53) -/

theorem decodeCommand_init (a : Byte) : decodeCommand (cmdWord 0x01 a) = .ok (.init a) := by
  simp [decodeCommand]

theorem decodeCommand_final (a : Byte) : decodeCommand (cmdWord 0x03 a) = .ok (.final a) := by
  simp [decodeCommand]

/-- An offered word runs the instruction of its opcode on its own operand. -/
theorem step_of_op {s : State} {w : CmdWord} {rest : List HostEvent} {op : Byte} {instr : Byte → Instr}
    (hw : s.offered w rest) (hdecode : ∀ a, decodeCommand (cmdWord op a) = .ok (instr a))
    (hop : w.toNat / 256 = op.toNat) : step s = exec (instr (cmdArg w)) (s.taken rest) := by
  have hop' : cmdOp w = op := BitVec.eq_of_toNat_eq ((cmdOp_toNat w).trans hop)
  have hd := hdecode (cmdArg w)
  rw [← hop', cmdWord_cmdOp_cmdArg] at hd
  exact step_of_command hw.1 hw.2 hd

theorem cmdArg_eq_zero_iff (w : CmdWord) : cmdArg w = 0 ↔ w.toNat % 256 = 0 := by
  rw [← cmdArg_toNat, ← BitVec.toNat_inj]
  rfl

theorem exec_absorb_of_phase_ne (b : Byte) {s : State} (hp : s.phase ≠ .absorb) :
    exec (.absorb b) s = .next (raiseFault .badphase s) := by
  rw [exec_absorb, byteOperand_ok]
  exact carryOut_of_not_allowed (by simpa [inAbsorb] using hp)

theorem exec_final_of_phase_ne {s : State} (hp : s.phase ≠ .absorb) :
    exec (.final 0) s = .next (raiseFault .badphase s) := by
  rw [exec_final, noOperand_zero]
  exact carryOut_of_not_allowed (by simpa [inAbsorb] using hp)

/-! ## The first cause that applies to a word (R141) -/

/-- The cause that the word `w` raises in phase `p`, if any, in the order ILLOP, RSVARG, BADIDX, BADPHASE (R141). -/
def firstCause (w : CmdWord) (p : Phase) : Option Cause :=
  if w.toNat / 256 < 1 ∨ 5 < w.toNat / 256 then some .illop
  else if (w.toNat / 256 = 1 ∨ w.toNat / 256 = 3) ∧ w.toNat % 256 ≠ 0 then some .rsvarg
  else if (w.toNat / 256 = 4 ∧ 32 ≤ w.toNat % 256) ∨ (w.toNat / 256 = 5 ∧ 2 ≤ w.toNat % 256) then some .badidx
  else if ((w.toNat / 256 = 2 ∨ w.toNat / 256 = 3) ∧ p ≠ .absorb) ∨ (w.toNat / 256 = 4 ∧ p ≠ .done) then some .badphase
  else none

/-- An offered word to which a cause applies does nothing but take the fault of the first one. -/
theorem step_of_firstCause_eq_some {s : State} {w : CmdWord} {rest : List HostEvent} {c : Cause}
    (hw : s.offered w rest) (hc : firstCause w s.phase = some c) :
    step s = .next (raiseFault c (s.taken rest)) := by
  unfold firstCause at hc
  split_ifs at hc with hillop hzero hindex hphase <;> cases hc
  · exact step_of_illegal hw.1 hw.2 (decodeCommand_of_illegal (by omega))
  · obtain ⟨hop | hop, harg⟩ := hzero
    · exact (step_of_op hw decodeCommand_init hop).trans (exec_init_of_ne (mt (cmdArg_eq_zero_iff w).mp harg) _)
    · exact (step_of_op hw decodeCommand_final hop).trans (exec_final_of_ne (mt (cmdArg_eq_zero_iff w).mp harg) _)
  · rw [← cmdArg_toNat] at hindex
    obtain ⟨hop, harg⟩ | ⟨hop, harg⟩ := hindex
    · exact (step_of_op hw decodeCommand_rdig hop).trans (exec_rdig_of_ge harg _)
    · exact (step_of_op hw decodeCommand_rdsr hop).trans (exec_rdsr_of_ge harg _)
  · obtain ⟨hop | hop, hp⟩ | ⟨hop, hp⟩ := hphase
    · exact (step_of_op hw decodeCommand_absorb hop).trans (exec_absorb_of_phase_ne _ hp)
    · have harg : cmdArg w = 0 := (cmdArg_eq_zero_iff w).mpr (by omega)
      rw [step_of_op hw decodeCommand_final hop, harg]
      exact exec_final_of_phase_ne hp
    · have harg : (cmdArg w).toNat < 32 := by rw [cmdArg_toNat]; omega
      exact (step_of_op hw decodeCommand_rdig hop).trans (exec_rdig_of_phase_ne harg hp)

/-- An offered word to which no cause applies runs its body, which responds without a fault. -/
theorem step_of_firstCause_eq_none {s : State} {w : CmdWord} {rest : List HostEvent}
    (hw : s.offered w rest) (hc : firstCause w s.phase = none) :
    ∃ t d, step s = .next t ∧ t.rsp = some ⟨false, d⟩ := by
  unfold firstCause at hc
  split_ifs at hc with hillop hzero hindex hphase
  rw [← cmdArg_toNat] at hindex
  have hzero' : w.toNat / 256 = 1 ∨ w.toNat / 256 = 3 → cmdArg w = 0 := fun h =>
    (cmdArg_eq_zero_iff w).mpr (by omega)
  obtain hop | hop | hop | hop | hop : w.toNat / 256 = 1 ∨ w.toNat / 256 = 2 ∨ w.toNat / 256 = 3 ∨
      w.toNat / 256 = 4 ∨ w.toNat / 256 = 5 := by omega
  · rw [step_of_op hw decodeCommand_init hop, hzero' (.inl hop)]
    exact ⟨_, _, exec_init_zero _, rfl⟩
  · have hp : s.phase = .absorb := by simpa [hop] using hphase
    exact ⟨_, _, (step_of_op hw decodeCommand_absorb hop).trans (exec_absorb_of_phase _ hp), absorbBody_rsp _ _⟩
  · have hp : s.phase = .absorb := by simpa [hop] using hphase
    rw [step_of_op hw decodeCommand_final hop, hzero' (.inr hop)]
    exact ⟨_, _, exec_final_of_phase hp, finalBody_rsp _⟩
  · have hp : s.phase = .done := by simpa [hop] using hphase
    exact ⟨_, _, (step_of_op hw decodeCommand_rdig hop).trans (exec_rdig_of_lt (by omega) hp), rfl⟩
  · exact ⟨_, _, (step_of_op hw decodeCommand_rdsr hop).trans (exec_rdsr_of_lt (by omega) _), rfl⟩

/-- Settles O38: the chain of the statement is that of `firstCause`. -/
theorem faultPriority : Obligations.FaultPriority := by
  intro s w rest hw op arg faults
  have hsome : ∀ c, firstCause w s.phase = some c → faults c := fun c hc =>
    ⟨[], by rw [← raiseFault_taken]; exact step_of_firstCause_eq_some hw hc⟩
  have hnone := step_of_firstCause_eq_none hw
  unfold firstCause at hsome hnone
  split_ifs at hsome hnone ⊢
  · exact hsome .illop rfl
  · exact hsome .rsvarg rfl
  · exact hsome .badidx rfl
  · exact hsome .badphase rfl
  · exact hnone rfl

/-! ## Words offered in FAULT (R143 to R145) -/

/-- A cause that applies in some phase applies in FAULT: the first three do not go by the phase, and what another phase
refuses, FAULT refuses as well. -/
theorem firstCause_fault_of_eq_some {w : CmdWord} {p : Phase} {c : Cause} (h : firstCause w p = some c) :
    firstCause w .fault = some c := by
  unfold firstCause at h ⊢
  split_ifs at h with hop hzero hindex hphase <;> cases h
  · exact if_pos hop
  · rw [if_neg hop, if_pos hzero]
  · rw [if_neg hop, if_neg hzero, if_pos hindex]
  · rw [if_neg hop, if_neg hzero, if_neg hindex, if_pos (hphase.imp (⟨·.1, nofun⟩) (⟨·.1, nofun⟩))]

/-- A word that faults in FAULT changes no state element (R143). -/
theorem step_of_firstCause_in_fault {s : State} {w : CmdWord} {rest : List HostEvent} {c : Cause}
    (hw : s.offered w rest) (hp : s.phase = .fault) (hc : firstCause w .fault = some c) :
    step s = .next { s with input := rest, rsp := some ⟨true, c.data⟩, tap := [] } := by
  rw [step_of_firstCause_eq_some hw (hp ▸ hc), raiseFault_of_fault c (show (s.taken rest).phase = .fault from hp)]
  rfl

/-- An offered RDSR 0 or RDSR 1 responds with its register, in every phase (R125). -/
theorem step_of_rdsr {s : State} {n : Fin 2} {rest : List HostEvent}
    (hw : s.offered (cmdWord 0x05 (BitVec.ofNat 8 n.val)) rest) :
    step s = .next { s with input := rest, rsp := some ⟨false, s.statusRegister n⟩, tap := [] } := by
  have hn : (BitVec.ofNat 8 n.val).toNat = n.val := by simp; omega
  rw [step_of_command hw.1 hw.2 (decodeCommand_rdsr _), exec_rdsr_of_lt (by omega)]
  simp only [hn]
  rfl

/-- Settles O39: INIT and the two legal reads run their bodies, and to every other word a cause applies. -/
theorem faultsInFaultChangeNothing : Obligations.FaultsInFaultChangeNothing := by
  intro s w rest hw hp op arg
  have hfault := fun c => step_of_firstCause_in_fault (c := c) hw hp
  unfold firstCause at hfault
  refine ⟨[], ?_⟩
  split_ifs with hinit hsr0 hsr1 hop hzero hindex
  · subst hinit
    exact ⟨.zero, Lanes.get_zero, step_of_init hw⟩
  · subst hsr0
    exact step_of_rdsr (n := 0) hw
  · subst hsr1
    exact step_of_rdsr (n := 1) hw
  · exact hfault .illop (if_pos hop)
  · exact hfault .rsvarg (by rw [if_neg hop, if_pos hzero])
  · exact hfault .badidx (by rw [if_neg hop, if_neg hzero, if_pos hindex])
  · have hphase : (w.toNat / 256 = 2 ∨ w.toNat / 256 = 3) ∨ w.toNat / 256 = 4 := by bv_omega
    exact hfault .badphase (by
      rw [if_neg hop, if_neg hzero, if_neg hindex, if_pos (hphase.imp (⟨·, nofun⟩) (⟨·, nofun⟩))])

/-- Settles O40, by the cases of a step: no PERMUTE runs in FAULT, a fault stays there, and of the bodies only those of
INIT and RDSR run there, of which RDSR keeps the phase. -/
theorem onlyInitAndResetLeaveFault : Obligations.OnlyInitAndResetLeaveFault := by
  intro s t hinv hp hstep hleave
  obtain ⟨rest, hi, rfl⟩ | ⟨c, ha, -, -⟩ | ⟨w, rest, i, -, hi, hd, he⟩ | ⟨w, rest, e, -, -, -, rfl⟩ | ⟨-, -, rfl⟩ :=
    step_cases hstep
  · exact .inl ⟨by rw [hi]; rfl, rfl⟩
  · have habsorb := phase_eq_absorb_of_inv hinv ha
    simp [hp] at habsorb
  · obtain ⟨c, rfl⟩ | ⟨rfl, rfl⟩ | ⟨b, -, hb, -⟩ | ⟨-, hb, -⟩ | ⟨_, k, -, -, hb, -⟩ | ⟨_, k, -, -, rfl⟩ :=
      exec_command_cases hd he
    · exact absurd (raiseFault_phase c _) hleave
    · have hw : w = 0x0100 := (Encoded.command.inj (encode_of_decodeCommand hd)).symm
      exact .inr ⟨by rw [hi, hw]; rfl, rfl, rfl, rfl, Lanes.get_zero⟩
    · simp [hp] at hb
    · simp [hp] at hb
    · simp [hp] at hb
    · exact absurd hp hleave
  · exact absurd (raiseFault_phase .illop _) hleave
  · exact absurd hp hleave

/-- Settles O41: the cause of a fault applies in FAULT too, and to a word that is no legal command one always applies. -/
theorem sameWordFaultsAgain : Obligations.SameWordFaultsAgain := by
  refine ⟨fun s t w rest d hw hstep hrsp => ?_, fun s w rest hw hbad => ?_⟩
  · rcases hc : firstCause w s.phase with _ | c
    · obtain ⟨t', d', hstep', hrsp'⟩ := step_of_firstCause_eq_none hw hc
      obtain rfl : t' = t := by simpa [hstep] using hstep'.symm
      simp [hrsp] at hrsp'
    · obtain rfl : t = raiseFault c (s.taken (.command w :: rest)) := by
        simpa [hstep] using step_of_firstCause_eq_some hw hc
      obtain rfl : c.data = d := by simpa using hrsp
      have hagain : (raiseFault c (s.taken (.command w :: rest))).offered w rest :=
        ⟨by rw [raiseFault_activity]; exact hw.1, raiseFault_input c _⟩
      exact ⟨[], step_of_firstCause_in_fault hagain (raiseFault_phase c _) (firstCause_fault_of_eq_some hc)⟩
  · obtain ⟨c, hstep⟩ := step_of_not_legal hw (mt (legalCommandWords w).mp hbad)
    exact ⟨_, c.data, hstep, raiseFault_phase c _, raiseFault_rsp c _⟩

end Sys2Proof.Proofs
end

section
namespace Sys2Proof.Proofs
open Sys2Proof Sys2Proof.Machine

/-! ## Reset and what it leaves open (R160, R161) -/

/-- What the first step shows is the same and the two runs go on from one state. -/
theorem shownBy_eq_of_step_eq (n : Nat) {s s' t : State} (h : step s = .next t) (h' : step s' = .next t) :
    shownBy n s = shownBy n s' := by
  cases n with
  | zero => rfl
  | succ n => rw [shownBy_succ h, shownBy_succ h']

/-- Of the state before it a reset keeps HAS_TAP only. -/
theorem resetBlock_congr (rest : List HostEvent) {s s' : State} (h : s.hasTap = s'.hasTap) :
    resetBlock rest s = resetBlock rest s' := by
  simp only [resetBlock, h]

/-- In phase IDLE with OFF 0 no rule reads the lanes or BUF (R12, R160). -/
theorem alikeToHost_resetWith (h : Bool) (events : List HostEvent) (lanes lanes' : Lanes) (buf buf' : Block) :
    State.alikeToHost { State.resetOf h with lanes := lanes, buf := buf, input := events }
      { State.resetOf h with lanes := lanes', buf := buf', input := events } :=
  ⟨rfl, Nat.zero_le 135, rfl, fun hp => by simp [State.resetOf] at hp, fun _ hk => absurd hk (Nat.not_lt_zero _)⟩

/-- Settles O43: the step is a reset whatever is in progress, and two copies alike in HAS_TAP go on from one state. -/
theorem resetAbandonsEverything : Obligations.ResetAbandonsEverything :=
  ⟨fun s rest hi => ⟨resetBlock rest s, step_of_reset hi, rfl, rfl⟩,
    fun s s' rest n hi hi' ht => by
      have hstep' : step s' = .next (resetBlock rest s) := by rw [step_of_reset hi', resetBlock_congr rest ht]
      exact shownBy_eq_of_step_eq n (step_of_reset hi) hstep'⟩

/-- Settles O51: any two choices of the lanes and BUF give states alike to the host, and steps keep states alike. -/
theorem resetValuesAreUnobservable : Obligations.ResetValuesAreUnobservable :=
  fun h l l' buf buf' events n => (shownBy_eq_of_alike n (alikeToHost_resetWith h events l l' buf buf')).symm

end Sys2Proof.Proofs
end

section
namespace Sys2Proof.Proofs
open Sys2Proof Sys2Proof.Machine

/-! ## The events of a micro-operation, without their lanes (R76, R152) -/

/-- The engine adds its events to those before them, if there is a tap. -/
theorem tapLabels_engineResult (l : Lanes) (q : Sequencer) (es : List TapEvent) (s : State) :
    tapLabels (engineResult l q es s).tap = tapLabels s.tap ++ (if s.hasTap then tapLabels es else []) := by
  rw [engineResult_tap]
  split
  · exact tapLabels_append _ _
  · exact (List.append_nil _).symm

/-- Settles O16: the closed form of the meaning names the word's own kind and round, and the word after it. -/
theorem microOpGoesByItsOwnWord : Obligations.MicroOpGoesByItsOwnWord := fun q s =>
  ⟨_, exec_seqInstr_eq q s, engineResult_seq _ _ _ _, tapLabels_engineResult _ _ _ s⟩

/-! ## The word that `withFetchWord` presents (R56, R57) -/

theorem decodeTableWord_eq_some_iff {nbits w : Nat} {i : Instr} :
    decodeTableWord nbits w = some i ↔ ∃ e, tableWord nbits w = some e ∧ decode e = .ok i := by
  constructor
  · intro h
    unfold decodeTableWord at h
    split at h
    · cases h
    · next e ht =>
      refine ⟨e, ht, ?_⟩
      split at h
      · next hd => rw [hd, Option.some.inj h]
      · cases h
  · rintro ⟨e, ht, hd⟩
    exact decodeTableWord_of_decode ht hd

theorem exists_command_of_tableWord {w : Nat} {e : Encoded} (h : tableWord 16 w = some e) :
    ∃ cw, e = .command cw := by
  by_cases hw : w < 65536 <;> simp [tableWord, hw] at h
  exact ⟨_, h.symm⟩

theorem exists_micro_of_tableWord {w : Nat} {e : Encoded} (h : tableWord 8 w = some e) :
    ∃ u, e = .micro u := by
  by_cases hw : w < 128 <;> simp [tableWord, hw] at h
  exact ⟨_, h.symm⟩

theorem withFetchWord_of_tableWord {nbits w : Nat} {e : Encoded} (h : tableWord nbits w = some e) (s : State) :
    s.withFetchWord nbits w = presentWord e s := by
  simp only [State.withFetchWord, h]

/-- A micro-operation word that decodes is the word of a place of SEQ, and decodes to the instruction there. -/
theorem exists_seqWord_of_decodeMicro {u : MicroWord} {i : Instr} (h : decodeMicro u = .ok i) :
    ∃ q : Sequencer, u = seqWord q ∧ q.instr = i := by
  rcases Nat.lt_or_ge u.toNat 96 with hlt | hge
  · obtain ⟨q, rfl⟩ := exists_eq_seqWord hlt
    exact ⟨q, rfl, Except.ok.inj ((decodeMicro_seqWord q).symm.trans h)⟩
  · rw [decodeMicro_of_ge hge] at h
    cases h

/-- A 16-bit word that decodes is a command word. -/
theorem exists_command_of_decodeTableWord {w : Nat} {i : Instr} (h : decodeTableWord 16 w = some i) :
    ∃ cw, tableWord 16 w = some (.command cw) ∧ decodeCommand cw = .ok i := by
  obtain ⟨e, ht, hd⟩ := decodeTableWord_eq_some_iff.mp h
  obtain ⟨cw, rfl⟩ := exists_command_of_tableWord ht
  exact ⟨cw, ht, hd⟩

/-- An 8-bit word that decodes is the word of a place of SEQ. -/
theorem exists_seqWord_of_decodeTableWord {w : Nat} {i : Instr} (h : decodeTableWord 8 w = some i) :
    ∃ q : Sequencer, tableWord 8 w = some (.micro (seqWord q)) ∧ q.instr = i := by
  obtain ⟨e, ht, hd⟩ := decodeTableWord_eq_some_iff.mp h
  obtain ⟨u, rfl⟩ := exists_micro_of_tableWord ht
  obtain ⟨q, rfl, hi⟩ := exists_seqWord_of_decodeMicro hd
  exact ⟨q, ht, hi⟩

/-! ## The step that runs the presented word -/

/-- A presented command word is what the step takes, whatever was in progress. -/
theorem step_presentWord_command {w : CmdWord} {i : Instr} (hd : decodeCommand w = .ok i) (s : State) :
    step (presentWord (.command w) s) = exec i { s.taken s.input with activity := .rest } :=
  step_of_command (s := presentWord (.command w) s) rfl rfl hd

/-- The PERMUTE in which a presented micro-operation runs: the one in progress, or else one of an ABSORB. -/
def presentedCaller : Activity → Caller
  | .rest => .absorb
  | .permuting c => c

/-- The word puts SEQ to its own place, inside a PERMUTE and with no reset before it. -/
theorem presentWord_seqWord (q : Sequencer) (s : State) :
    presentWord (.micro (seqWord q)) s = { s with
      seq := q
      activity := .permuting (presentedCaller s.activity)
      input := s.input.dropWhile (· == .reset) } := by
  obtain ⟨r, p⟩ := q
  have hactivity : (if s.activity = .rest then .permuting .absorb else s.activity) =
      Activity.permuting (presentedCaller s.activity) := by
    rcases s.activity with _ | c <;> rfl
  cases p <;> simp [presentWord, seqWord, Stp.code, hactivity]

theorem head?_dropWhile_reset_ne (events : List HostEvent) :
    (events.dropWhile (· == .reset)).head? ≠ some .reset := by
  intro h
  have hkept := List.head?_dropWhile_not (· == HostEvent.reset) events
  rw [h] at hkept
  cases hkept

/-- The step runs the presented micro-operation on the same lanes, and ends the command where that was its last. -/
theorem step_presentWord_seqWord (q : Sequencer) (s : State) :
    ∃ (s0 t : State) (c : Caller), s0.lanes = s.lanes ∧ exec q.instr s0 = .next t ∧
      step (presentWord (.micro (seqWord q)) s) = .next (settle c t) := by
  rw [presentWord_seqWord]
  refine ⟨_, _, _, ?_, exec_seqInstr q _, step_permuting rfl (head?_dropWhile_reset_ne s.input)⟩
  rfl

/-- Settles O8: a 16-bit word is presented as a command, an 8-bit one as the micro-operation at the place of SEQ it
names. -/
theorem fetchWordRunsTheRow : Obligations.FetchWordRunsTheRow := by
  refine ⟨fun s w i h => ?_, fun s w i h => ?_⟩
  · obtain ⟨cw, ht, hd⟩ := exists_command_of_decodeTableWord h
    rw [withFetchWord_of_tableWord ht]
    exact step_presentWord_command hd s
  · obtain ⟨q, ht, rfl⟩ := exists_seqWord_of_decodeTableWord h
    rw [withFetchWord_of_tableWord ht]
    exact step_presentWord_seqWord q s

end Sys2Proof.Proofs
end
